-- ==== Sys2Proof/Word.lean ====
section
/-! DEFINITION. The word types of the IR protocol encoder: the fixed widths of 00_scope.md rule R2. -/

namespace Sys2Proof

/-- A payload byte (`TEMP_W` = 8 as well: the temperature field of a command). -/
abbrev Byte := BitVec 8

/-- A duration in microseconds, `DUR_W` = 16 bits, unsigned (R2, R23). -/
abbrev Dur := BitVec 16

/-- The command word CMD, `CMD_W` = 16 bits (R70, R85). -/
abbrev CmdWord := BitVec 16

/-- The hold-request word HREQ, `HREQ_W` = 32 bits (R77, R85). -/
abbrev HreqWord := BitVec 32

end Sys2Proof
end

