-- ==== Sys2Proof/Syntax.lean ====
section
/-! DEFINITION. The operation set: one constructor of `Instr` for every row of spec/opcode_table.json,
with the enumerations its operands range over. -/

namespace Sys2Proof

/-- The two signal levels (00_scope.md section 6). -/
inductive Level where
  | high
  | low
deriving DecidableEq, Repr

/-- The five modes, in the source's order (R72). -/
inductive Mode where
  | auto
  | cool
  | dry
  | fan
  | warm
deriving DecidableEq, Repr

/-- The four fan speeds, in the source's order (R73). -/
inductive Speed where
  | auto
  | low
  | middle
  | high
deriving DecidableEq, Repr

/-- The operands of one HOLD request: a level and a duration (R78). -/
structure Hold where
  level : Level
  dur   : Dur
deriving DecidableEq, Repr

/-- The output word OUTW: a duration and the `last` flag (R83). -/
structure OutWord where
  data : Dur
  last : Bool
deriving DecidableEq, Repr

/-- The three payload bytes `(a, b, c)` of a frame; `a` is sent first (R26). -/
structure Payload where
  a : Byte
  b : Byte
  c : Byte
deriving DecidableEq, Repr

/-- The "format" column of the opcode table: on which port an operation's word arrives, or that it
has no word. -/
inductive Format where
  | cmd
  | hreq
  | composite
  | host
deriving DecidableEq, Repr

/-- The operations of spec/opcode_table.json, one constructor a row. A CMD constructor carries every
field of its word, also the fields the operation does not use (R76). -/
inductive Instr where
  /-- ENCODE_POWER_ON (R185). -/
  | encodePowerOn (m : Mode) (sp : Speed) (t : Byte)
  /-- ENCODE_POWER_OFF (R186); its fields are checked and not used (R161). -/
  | encodePowerOff (m : Mode) (sp : Speed) (t : Byte)
  /-- REJECT_RESERVED (R212): a command with `Z ≠ 0`. -/
  | rejectReserved (p : Bool) (m : BitVec 3) (sp : Speed) (z : BitVec 2) (t : Byte)
  /-- REJECT_BAD_MODE (R212): a command with mode code 5, 6 or 7. -/
  | rejectBadMode (p : Bool) (m : BitVec 3) (sp : Speed) (t : Byte)
  /-- REJECT_TEMP_RANGE (R212): a command with a temperature outside 17..30. -/
  | rejectTempRange (p : Bool) (m : Mode) (sp : Speed) (t : Byte)
  /-- HOLD (R100 to R103, R106). -/
  | hold (lv : Level) (d : Dur)
  /-- FINISH (R104 to R106). -/
  | finish
  /-- ILLEGAL_HREQ (R107): a hold-request word that is neither HOLD nor FINISH. -/
  | illegalHreq (op : BitVec 2) (r : BitVec 13) (lv : Bool) (d : Dur)
  /-- LEAD_IN (R130). -/
  | leadIn
  /-- BIT_ONE (R131). -/
  | bitOne
  /-- BIT_ZERO (R132). -/
  | bitZero
  /-- STOP (R133). -/
  | stop
  /-- ENCODE_BYTE (R134). -/
  | encodeByte (b : Byte)
  /-- ENCODE_PAIR (R135). -/
  | encodePair (b : Byte)
  /-- ENCODE_FRAME (R136), with `terminate_with_stop`. -/
  | encodeFrame (a b c : Byte) (withStop : Bool)
  /-- VALIDATE (R160). -/
  | validate (t : Byte)
  /-- GREY (R163). -/
  | grey (x : BitVec 4)
  /-- PACK (R169). -/
  | pack (m : Mode) (sp : Speed) (t : Byte)
  /-- POP, the host's (R193). -/
  | pop
  /-- RESET, the host's (R240). -/
  | reset
deriving DecidableEq, Repr

end Sys2Proof
end

