-- ==== Sys2Proof/Config.lean ====
section
/-! DEFINITION. The OPEN parameters of 00_scope.md section 4 and the free values of the model. All are
opaque: no proof can see which value they have, so a claim holds for every value. -/

namespace Sys2Proof

/-- `SPEED_CODE` and `B_MARKER` (R167, D9, D10) with the constraint of R1: byte b of a power-on frame
is never the power-off byte 0x7B. -/
structure PayloadParams where
  speedCode : Speed → BitVec 3
  bMarker   : BitVec 5
  differs   : ∀ s : Speed, ((speedCode s).setWidth 8 <<< 5) ||| bMarker.setWidth 8 ≠ (0x7B : Byte)

/-- The parameters of byte b, left OPEN by the spec (D9, D10; log 13). The bracketed argument only
shows that some parameters meet R1; the value is not a function of it that a proof could compute. -/
opaque Config.payloadParams [Inhabited PayloadParams] : PayloadParams

/-- The parameters this block was built with (R1, R243). -/
def Config.params : PayloadParams :=
  @Config.payloadParams ⟨⟨fun _ => 0, 0, fun s => by cases s <;> decide⟩⟩

/-- `SPEED_CODE` (D9). -/
def Config.speedCode (s : Speed) : BitVec 3 := Config.params.speedCode s

/-- `B_MARKER` (D10). -/
def Config.bMarker : BitVec 5 := Config.params.bMarker

/-- `MODE_CODE` (D11), not required to be injective. -/
opaque Config.modeCode : Mode → BitVec 4

/-- `HIGH_IS_CARRIER_ON` (R141, D28): what `High` means at the IR LED. No rule reads it. -/
opaque Config.highIsCarrierOn : Bool

/-- A byte the spec leaves unspecified (R39): `freeByte n` is the `n`-th one drawn (log 2). -/
opaque Config.freeByte : Nat → Byte

/-- A bit the spec leaves unspecified (R33, R39; log 2, log 3). -/
opaque Config.freeBit : Nat → Bool

/-- A duration the spec leaves unspecified (R33; log 3). -/
opaque Config.freeDur : Nat → Dur

/-- Which of the words offered since `cmd_valid` rose is taken (R244; log 7). -/
opaque Config.freeChoice : Nat → Nat

/-- Byte c of PACK for a temperature outside 17..30, for which the spec states no value (log 12). -/
opaque Config.unstatedPackC : Mode → Byte → Byte

end Sys2Proof
end

