-- ==== Sys2Proof/Machine/Operands.lean ====
section
/-! DEFINITION. The values operations compute from their operands: the protocol constants, the HOLD
lists of the composites (41_protocol_elements.md), the payload bytes (42_payload.md), the hold program
(R188), and the pure functions the spec states of request lists (R112) and output words (R56, R196). -/

namespace Sys2Proof.Machine

/-! ### Constants -/

/-- `T_MIN` (R160). -/
def tMin : Nat := 17

/-- `T_MAX` (R160). -/
def tMax : Nat := 30

/-- `T_LEAD` in microseconds (R130). -/
def tLead : Dur := 4400

/-- `T_MARK` in microseconds (R131 to R133). -/
def tMark : Dur := 540

/-- `T_ONE` in microseconds (R131). -/
def tOne : Dur := 1620

/-- `T_ZERO` in microseconds (R132). -/
def tZero : Dur := 540

/-- `T_STOP` in microseconds (R133). -/
def tStop : Dur := 5220

/-- `A_ID`, the identifier byte (R166). -/
def aId : Byte := 0xB2

/-- The power-off constant table `ROM_OFF` (R170), kept as a table (R171). -/
def romOff : Vector Byte 6 := #v[0xB2, 0x7B, 0xE0, 0xB2, 0x00, 0x00]

/-! ### Protocol elements, bytes, pairs and frames -/

/-- `not8(b)`, the bitwise complement (00_scope.md section 6). -/
def not8 (b : Byte) : Byte := b ^^^ 0xFF

/-- `holds(LEAD_IN)` (R130). -/
def holdsLeadIn : List Hold := [⟨.high, tLead⟩, ⟨.low, tLead⟩]

/-- `holds(BIT_ONE)` (R131). -/
def holdsBitOne : List Hold := [⟨.high, tMark⟩, ⟨.low, tOne⟩]

/-- `holds(BIT_ZERO)` (R132). -/
def holdsBitZero : List Hold := [⟨.high, tMark⟩, ⟨.low, tZero⟩]

/-- `holds(STOP)` (R133). -/
def holdsStop : List Hold := [⟨.high, tMark⟩, ⟨.low, tStop⟩]

/-- The element of one bit (R134). -/
def holdsBit (bit : Bool) : List Hold := if bit then holdsBitOne else holdsBitZero

/-- `holds(ENCODE_BYTE b)`: bit 7 first, bit 0 last (R134, R52). -/
def holdsByte (b : Byte) : List Hold :=
  [7, 6, 5, 4, 3, 2, 1, 0].flatMap fun i => holdsBit (b.getLsbD i)

/-- `holds(ENCODE_PAIR b)`: the byte, then its complement (R135, R53). -/
def holdsPair (b : Byte) : List Hold := holdsByte b ++ holdsByte (not8 b)

/-- `holds(ENCODE_FRAME a, b, c, withStop)` (R136, R54). -/
def holdsFrame (p : Payload) (withStop : Bool) : List Hold :=
  holdsLeadIn ++ holdsPair p.a ++ holdsPair p.b ++ holdsPair p.c ++
    (if withStop then holdsStop else [])

/-- The frame word `F` of a payload, `a` in bits 47:40 (R137). -/
def frameWord (p : Payload) : BitVec 48 :=
  p.a ++ not8 p.a ++ p.b ++ not8 p.b ++ p.c ++ not8 p.c

/-! ### Validation and payload -/

/-- The check of VALIDATE: `17 ≤ t ≤ 30` (R160). -/
def validTemp (t : Byte) : Bool := decide (tMin ≤ t.toNat) && decide (t.toNat ≤ tMax)

/-- `GREY(x) = (x >> 1) XOR x` (R163). -/
def greyCode (x : BitVec 4) : BitVec 4 := (x >>> 1) ^^^ x

/-- The temperature offset `t - 17` as 4 bits (R164). -/
def tempOffset (t : Byte) : BitVec 4 := (t - BitVec.ofNat 8 tMin).setWidth 4

/-- Byte b of a power-on frame (R167). -/
def packB (sp : Speed) : Byte :=
  ((Config.speedCode sp).setWidth 8 <<< 5) ||| Config.bMarker.setWidth 8

/-- Byte c of a power-on frame (R168); outside 17..30 the spec states no value (log 12). -/
def packC (m : Mode) (t : Byte) : Byte :=
  if validTemp t then
    ((greyCode (tempOffset t)).setWidth 8 <<< 4) ||| (Config.modeCode m).setWidth 8
  else Config.unstatedPackC m t

/-- `PACK(m, s, t)` (R169). -/
def packBytes (m : Mode) (sp : Speed) (t : Byte) : Payload := ⟨aId, packB sp, packC m t⟩

/-- The payload of the first power-off frame (R170, R184). -/
def offFirst : Payload := ⟨romOff[0], romOff[1], romOff[2]⟩

/-- The payload of the second power-off frame (R170, R184). -/
def offSecond : Payload := ⟨romOff[3], romOff[4], romOff[5]⟩

/-! ### The hold program -/

/-- The 198 HOLDs of a run: a stopped frame of `x`, then an open frame of `y` (R188). -/
def progHolds (x y : Payload) : List Hold := holdsFrame x true ++ holdsFrame y false

/-- `prog[i]` (R188): entries 0 to 197 are HOLDs, 198 is FINISH, and there is no other. -/
def prog (x y : Payload) (i : Nat) : Option Instr :=
  if i = 198 then some .finish
  else (progHolds x y)[i]?.map fun h => .hold h.level h.dur

/-! ### Pure functions of request lists and output words -/

/-- `go` of R112. -/
def coalesceFrom (lv : Level) (acc : Nat) : List Hold → List Nat → Except (List Nat) (List Nat)
  | [], out => .ok (out ++ [acc])
  | h :: rest, out =>
    if h.dur = 0#16 then coalesceFrom lv acc rest out
    else if h.level = lv then
      if acc + h.dur.toNat > 0xFFFF then .error out
      else coalesceFrom lv (acc + h.dur.toNat) rest out
    else coalesceFrom h.level h.dur.toNat rest (out ++ [acc])

/-- `coalesce(rs)` of R112: the words of a list of HOLDs followed by one FINISH, from the fresh state,
or, on E_OVERFLOW, the words emitted before the faulting request. -/
def coalesce (rs : List Hold) : Except (List Nat) (List Nat) := coalesceFrom .high 0 rs []

/-- The level of output word `k` of a run, by position (R56, R246). -/
def levelAt (k : Nat) : Level := if k % 2 = 0 then .high else .low

end Sys2Proof.Machine
end

