-- ==== Sys2Proof/WellFormed.lean ====
section
/-! DEFINITION. Which terms of `Instr` stand for an operation of the spec: the operand checks of
30_encoding.md R72 to R80 and 42_payload.md R160. -/

namespace Sys2Proof

/-- The operands are ones the operation's row of the opcode table admits. -/
def WellFormed : Instr → Bool
  | .encodePowerOn _ _ t => Machine.validTemp t
  | .encodePowerOff _ _ t => Machine.validTemp t
  | .rejectReserved _ _ _ z _ => z != 0
  | .rejectBadMode _ m _ _ => decide (5 ≤ m.toNat)
  | .rejectTempRange _ _ _ t => !Machine.validTemp t
  | .hold _ _ => true
  | .finish => true
  | .illegalHreq op r lv d =>
      !(op == 0 && r == 0) && !(op == 1 && r == 0 && lv == false && d == 0)
  | .leadIn => true
  | .bitOne => true
  | .bitZero => true
  | .stop => true
  | .encodeByte _ => true
  | .encodePair _ => true
  | .encodeFrame _ _ _ _ => true
  | .validate _ => true
  | .grey _ => true
  | .pack _ _ t => Machine.validTemp t
  | .pop => true
  | .reset => true

end Sys2Proof
end

