-- ==== Sys2Proof/Decode.lean ====
section
/-! DEFINITION. Decoding the words of the command port and of the hold-request bus (30_encoding.md),
and after it the encoder. A word's length is known from the port it arrives on (R85). -/

namespace Sys2Proof

/-! ### Codes at the ports -/

/-- `level_bit`: High is 1 (00_scope.md section 6, R78). -/
def levelBit : Level → Bool
  | .high => true
  | .low => false

/-- The level of an `LV` bit (R78). -/
def levelOfBit (b : Bool) : Level := if b then .high else .low

/-- The mode code at the command port (R72). -/
def modePort : Mode → BitVec 3
  | .auto => 0
  | .cool => 1
  | .dry => 2
  | .fan => 3
  | .warm => 4

/-- The mode of a mode code; 5, 6 and 7 name none (R72). -/
def modeOfPort (c : BitVec 3) : Option Mode :=
  if c = 0 then some .auto
  else if c = 1 then some .cool
  else if c = 2 then some .dry
  else if c = 3 then some .fan
  else if c = 4 then some .warm
  else none

/-- The speed code at the command port (R73). -/
def speedPort : Speed → BitVec 2
  | .auto => 0
  | .low => 1
  | .middle => 2
  | .high => 3

/-- The speed of a speed code; all four are legal (R73). -/
def speedOfPort (c : BitVec 2) : Speed :=
  if c = 0 then .auto
  else if c = 1 then .low
  else if c = 2 then .middle
  else .high

/-! ### Fields (R70, R77) -/

/-- `P`, bit 15. -/
def cmdP (w : CmdWord) : Bool := w.getLsbD 15

/-- `M`, bits 14:12. -/
def cmdM (w : CmdWord) : BitVec 3 := w.extractLsb' 12 3

/-- `S`, bits 11:10. -/
def cmdS (w : CmdWord) : BitVec 2 := w.extractLsb' 10 2

/-- `Z`, bits 9:8. -/
def cmdZ (w : CmdWord) : BitVec 2 := w.extractLsb' 8 2

/-- `T`, bits 7:0, unsigned and unscaled (R75, R84). -/
def cmdT (w : CmdWord) : Byte := w.extractLsb' 0 8

/-- `OP`, bits 31:30. -/
def hreqOp (w : HreqWord) : BitVec 2 := w.extractLsb' 30 2

/-- `R`, bits 29:17. -/
def hreqR (w : HreqWord) : BitVec 13 := w.extractLsb' 17 13

/-- `LV`, bit 16. -/
def hreqLv (w : HreqWord) : Bool := w.getLsbD 16

/-- `D`, bits 15:0, unsigned and unscaled (R84). -/
def hreqD (w : HreqWord) : Dur := w.extractLsb' 0 16

/-! ### Decoding -/

/-- Decodes a command word. Total (R76): the checks of R212 in their order. -/
def decodeCmd (w : CmdWord) : Instr :=
  if cmdZ w ≠ 0 then .rejectReserved (cmdP w) (cmdM w) (speedOfPort (cmdS w)) (cmdZ w) (cmdT w)
  else
    match modeOfPort (cmdM w) with
    | none => .rejectBadMode (cmdP w) (cmdM w) (speedOfPort (cmdS w)) (cmdT w)
    | some m =>
      if Machine.validTemp (cmdT w) then
        if cmdP w then .encodePowerOn m (speedOfPort (cmdS w)) (cmdT w)
        else .encodePowerOff m (speedOfPort (cmdS w)) (cmdT w)
      else .rejectTempRange (cmdP w) m (speedOfPort (cmdS w)) (cmdT w)

/-- Decodes a hold-request word. Total (R81): HOLD (R78), FINISH (R79) or illegal (R80). -/
def decodeHreq (w : HreqWord) : Instr :=
  if hreqOp w = 0 ∧ hreqR w = 0 then .hold (levelOfBit (hreqLv w)) (hreqD w)
  else if w = 0x40000000 then .finish
  else .illegalHreq (hreqOp w) (hreqR w) (hreqLv w) (hreqD w)

/-- A word together with the port it arrives on. -/
inductive PortWord where
  | cmd (w : CmdWord)
  | hreq (w : HreqWord)
deriving DecidableEq, Repr

/-- Why a number of bits is no word of the block. -/
inductive DecodeError where
  /-- An operation without a word: a composite or a host action (30_encoding.md section 6). -/
  | noWord
  /-- No port carries words of this length (R85). -/
  | noSuchLength (nbits : Nat)
deriving DecidableEq, Repr

/-- The port word of `nbits` bits of value `w`: exactly 16 bits are a command word, exactly 32 a
hold-request word, and no instruction has another length (R85). -/
def portWordOf (nbits w : Nat) : Except DecodeError PortWord :=
  if nbits = 0 then .error .noWord
  else if nbits = 16 then .ok (.cmd (BitVec.ofNat 16 w))
  else if nbits = 32 then .ok (.hreq (BitVec.ofNat 32 w))
  else .error (.noSuchLength nbits)

/-- Decodes a word by its port (R85). -/
def decode : PortWord → Instr
  | .cmd w => decodeCmd w
  | .hreq w => decodeHreq w

/-- The instruction the decoder reads from an opcode-table word. -/
def decodeTableWord (nbits w : Nat) : Option Instr :=
  match portWordOf nbits w with
  | .ok p => some (decode p)
  | .error _ => none

/-! ### Encoding -/

/-- The command word of its five fields (R70). -/
def cmdWordOf (p : Bool) (m : BitVec 3) (s z : BitVec 2) (t : Byte) : CmdWord :=
  BitVec.ofBool p ++ m ++ s ++ z ++ t

/-- The hold-request word of its four fields (R77). -/
def hreqWordOf (op : BitVec 2) (r : BitVec 13) (lv : Bool) (d : Dur) : HreqWord :=
  op ++ r ++ BitVec.ofBool lv ++ d

/-- The word of an operation, `none` for an operation that has no word (30_encoding.md section 6). -/
def encode : Instr → Option PortWord
  | .encodePowerOn m sp t => some (.cmd (cmdWordOf true (modePort m) (speedPort sp) 0 t))
  | .encodePowerOff m sp t => some (.cmd (cmdWordOf false (modePort m) (speedPort sp) 0 t))
  | .rejectReserved p m sp z t => some (.cmd (cmdWordOf p m (speedPort sp) z t))
  | .rejectBadMode p m sp t => some (.cmd (cmdWordOf p m (speedPort sp) 0 t))
  | .rejectTempRange p m sp t => some (.cmd (cmdWordOf p (modePort m) (speedPort sp) 0 t))
  | .hold lv d => some (.hreq (hreqWordOf 0 0 (levelBit lv) d))
  | .finish => some (.hreq (hreqWordOf 1 0 false 0))
  | .illegalHreq op r lv d => some (.hreq (hreqWordOf op r lv d))
  | .leadIn => none
  | .bitOne => none
  | .bitZero => none
  | .stop => none
  | .encodeByte _ => none
  | .encodePair _ => none
  | .encodeFrame _ _ _ _ => none
  | .validate _ => none
  | .grey _ => none
  | .pack _ _ _ => none
  | .pop => none
  | .reset => none

/-- The 17 bits of an output word: `out_last` is bit 16, `out_data` bits 15:0 (R83). -/
def encodeOut (o : OutWord) : BitVec 17 := BitVec.ofBool o.last ++ o.data

/-- The output word of 17 bits (R83). -/
def decodeOut (w : BitVec 17) : OutWord := ⟨w.extractLsb' 0 16, w.getLsbD 16⟩

/-- The format column of the operation's row in the opcode table. -/
def formatOf : Instr → Format
  | .encodePowerOn _ _ _ => .cmd
  | .encodePowerOff _ _ _ => .cmd
  | .rejectReserved _ _ _ _ _ => .cmd
  | .rejectBadMode _ _ _ _ => .cmd
  | .rejectTempRange _ _ _ _ => .cmd
  | .hold _ _ => .hreq
  | .finish => .hreq
  | .illegalHreq _ _ _ _ => .hreq
  | .leadIn => .composite
  | .bitOne => .composite
  | .bitZero => .composite
  | .stop => .composite
  | .encodeByte _ => .composite
  | .encodePair _ => .composite
  | .encodeFrame _ _ _ _ => .composite
  | .validate _ => .composite
  | .grey _ => .composite
  | .pack _ _ _ => .composite
  | .pop => .host
  | .reset => .host

end Sys2Proof
end

