-- ==== Sys2Proof/Machine/State.lean ====
section
/-! DEFINITION. The state of the IR protocol encoder: the registers of 10_state.md rule R21, the input
ports a step reads (43_transmissions.md R180, 40_pulse_encoder.md R113), the host's plans and record,
and the reasons a step can stop. -/

namespace Sys2Proof.Machine

/-- The phases of a run (R27); 5, 6 and 7 are never held. -/
inductive Phase where
  | idle
  | payloadComputed
  | frame1Emitted
  | frame2Emitted
  | finished
deriving DecidableEq, Repr

/-- The outcome codes of R30 and R210; 7 is never held. -/
inductive ErrCode where
  | none
  | tempRange
  | badMode
  | reserved
  | overflow
  | reuse
  | illegalReq
deriving DecidableEq, Repr

/-- The coalescer's registers (R22, R23, R24). -/
structure Coalescer where
  level  : Level
  acc    : Dur
  closed : Bool
deriving DecidableEq, Repr

/-- The sequencer's registers (R27, R28, R29). -/
structure Sequencer where
  power : Bool
  phase : Phase
  idx   : BitVec 8
deriving DecidableEq, Repr

/-- The output register (R33). -/
structure OutReg where
  valid : Bool
  data  : Dur
  last  : Bool
deriving DecidableEq, Repr

/-- One action of the host, a step of its own (R4, R5; log 5). -/
inductive HostAct where
  /-- The host leaves this step to the block. -/
  | yield
  /-- Drives `cmd_valid` = 1 with this `cmd_word` (R181, R244). -/
  | offerCmd (w : CmdWord)
  /-- Drives `cmd_valid` = 0. -/
  | withdrawCmd
  /-- Drives `out_ready` (R193). -/
  | setReady (b : Bool)
  /-- Asserts `rst` for the next step (R240). -/
  | assertRst
  /-- Puts a word on the request port of a coalescer on its own (R113). -/
  | request (w : HreqWord)
  /-- Drives `hreq_valid` = 0 (R113). -/
  | withdrawReq
  /-- Runs a composite operation, a program line without a word, outside the integrated block (R4, R87;
  log 10, log 11). -/
  | perform (i : Instr)
deriving DecidableEq, Repr

/-- What the host holds of a run that has ended (R6, R247, I14; log 15). -/
inductive RunResult where
  /-- The word with `last` = 1 was popped: the words of the run, and `err_code` then. -/
  | complete (words : List OutWord) (err : ErrCode)
  /-- A reset cut the run short; its prefix is discarded. -/
  | cut
deriving DecidableEq, Repr

/-- The result of a combinational operation run by itself (42_payload.md, opening; log 11). -/
inductive OpResult where
  | none
  /-- VALIDATE: E_NONE, or E_TEMP_RANGE. -/
  | verdict (code : ErrCode)
  /-- GREY. -/
  | code (x : BitVec 4)
  /-- PACK. -/
  | bytes (p : Payload)
deriving DecidableEq, Repr

/-- The machine. -/
structure State where
  /-- `co.level`, `co.acc`, `co.closed`. -/
  co          : Coalescer
  /-- `pk.x[0..2]`, the payload of the first frame (R26). -/
  pkx         : Payload
  /-- `pk.y[0..2]`, the payload of the second frame (R26). -/
  pky         : Payload
  /-- `sq.power`, `sq.phase`, `sq.idx`. -/
  sq          : Sequencer
  /-- `err_code` (R30). -/
  err         : ErrCode
  /-- `fault` (R31). -/
  fault       : Bool
  /-- `out.valid`, `out.data`, `out.last` (R33). -/
  out         : OutReg
  /-- Port `rst` (R180). -/
  rst         : Bool
  /-- Ports `cmd_valid` and `cmd_word`: the words driven since `cmd_valid` rose, the latest last;
  empty when `cmd_valid` = 0 (R180, R244; log 7). -/
  cmdOffers   : List CmdWord
  /-- Port `out_ready` (R180). -/
  outReady    : Bool
  /-- Ports `hreq_valid` and `hreq_word` of a coalescer on its own: the words to hand over, the head
  on the port; empty when `hreq_valid` = 0 (R113). -/
  hreqs       : List HreqWord
  /-- What the host does in later steps (log 5). -/
  script      : List HostAct
  /-- The words of the current run the host has popped (R6, R67; log 15). -/
  received    : List OutWord
  /-- The runs that have ended, oldest first (log 15). -/
  results     : List RunResult
  /-- Which device this is: the integrated block, or the coalescer on its own (R113; log 9). -/
  alone       : Bool
  /-- The block has been reset since power-up (R242; log 8). -/
  initialised : Bool
  /-- HOLDs of a composite run by itself that are still to be issued (log 10). -/
  issuing     : List Hold
  /-- The result of the last combinational operation run by itself (log 11). -/
  opResult    : OpResult
  /-- How many free values have been drawn (log 4). -/
  freeCount   : Nat
deriving DecidableEq, Repr

/-- Why a step stops with a fault. -/
inductive Fault where
  /-- Raised by `step` alone: the sticky `fault` register is 1 and neither a pop, nor a reset, nor any
  planned action of the host is left, so nothing can happen (R215, I12). Safe: a stop, where the block
  waits for the host for ever. -/
  | halted (code : ErrCode)
deriving DecidableEq, Repr

/-- Why a step has no meaning. -/
inductive Refusal where
  /-- An instruction whose meaning is not written yet. Safe. -/
  | notModelled (mnemonic : String)
  /-- Raised by every operation but RESET, and by the block's turn of `step`, before the first reset
  after power-up (R242, I3). Safe: the spec asks a model to refuse. -/
  | beforeFirstReset
  /-- Raised by `step` when a run is in progress at an index that has no request: such a state is
  never held (R35, I10; log 16). Safe. -/
  | outsideProgram
deriving DecidableEq, Repr

/-- The fresh coalescer values (R38). -/
def freshCoalescer : Coalescer := ⟨.high, 0, false⟩

/-- The machine right after reset (R240, R241). The spec gives no reset value for `pkx`, `pky`,
`sq.power` (R39), `out.data` and `out.last` (R33): zero, DESIGN CHOICE (log 1, log 3). -/
def State.reset : State where
  co := freshCoalescer
  pkx := ⟨0, 0, 0⟩
  pky := ⟨0, 0, 0⟩
  sq := ⟨false, .idle, 0⟩
  err := .none
  fault := false
  out := ⟨false, 0, false⟩
  rst := false
  cmdOffers := []
  outReady := false
  hreqs := []
  script := []
  received := []
  results := []
  alone := false
  initialised := true
  issuing := []
  opResult := .none
  freeCount := 0

end Sys2Proof.Machine
end

