-- ==== Sys2Proof/Machine/Flags.lean ====
section
/-! DEFINITION. The block has no condition codes or arithmetic flags (10_state.md R32). Its single-bit
and coded outputs are pure functions of the registers: the status outputs of R34 and, for a coalescer
on its own, `hreq_ready` of 40_pulse_encoder.md R113. -/

namespace Sys2Proof.Machine

/-- The 3-bit code of a phase (R27). -/
def phaseCode : Phase → BitVec 3
  | .idle => 0
  | .payloadComputed => 1
  | .frame1Emitted => 2
  | .frame2Emitted => 3
  | .finished => 4

/-- The 3-bit code of an outcome (R210). -/
def errCode : ErrCode → BitVec 3
  | .none => 0
  | .tempRange => 1
  | .badMode => 2
  | .reserved => 3
  | .overflow => 4
  | .reuse => 5
  | .illegalReq => 6

/-- The sequencer is issuing requests: PayloadComputed, Frame1Emitted or Frame2Emitted (R189). -/
def running : Phase → Bool
  | .idle => false
  | .payloadComputed => true
  | .frame1Emitted => true
  | .frame2Emitted => true
  | .finished => false

/-- `cmd_ready` (R34, R183). -/
def cmdReady (s : State) : Bool := !s.fault && !s.out.valid && !running s.sq.phase

/-- `busy` (R34). -/
def busy (s : State) : Bool := !s.fault && (running s.sq.phase || s.out.valid)

/-- `done` (R34). -/
def done (s : State) : Bool := !s.fault && s.sq.phase == .finished && !s.out.valid

/-- The request would emit a word if it were performed: a HOLD under R102, a FINISH under R104. -/
def wouldEmit (i : Instr) (s : State) : Bool :=
  match i with
  | .hold lv d => !s.co.closed && d != 0#16 && lv != s.co.level
  | .finish => !s.co.closed
  | _ => false

/-- The coalescer can perform the request in this step (R108): `hreq_ready` of R113. -/
def requestReady (i : Instr) (s : State) : Bool := !s.fault && (!s.out.valid || !wouldEmit i s)

/-- `hreq_ready` for the word on the request port (R113). -/
def hreqReady (w : HreqWord) (s : State) : Bool := requestReady (decodeHreq w) s

/-- The output ports of R180. -/
structure Outputs where
  cmdReady : Bool
  outValid : Bool
  outData  : Dur
  outLast  : Bool
  busy     : Bool
  done     : Bool
  phase    : BitVec 3
  errCode  : BitVec 3
  fault    : Bool
deriving DecidableEq, Repr

/-- What the block drives on its output ports (R34, R180). -/
def outputs (s : State) : Outputs where
  cmdReady := cmdReady s
  outValid := s.out.valid
  outData := s.out.data
  outLast := s.out.last
  busy := busy s
  done := done s
  phase := phaseCode s.sq.phase
  errCode := errCode s.err
  fault := s.fault

end Sys2Proof.Machine
end

