-- ==== Sys2Proof/Machine/Ops.lean ====
section
/-! DEFINITION. The shared operations on State: rejecting a command and raising a fault (the block's
exceptions; there is no return from either, R218), starting a run, the coalescer's requests, issuing a
composite, the host's pop and reset, and the sequencer's update. -/

namespace Sys2Proof.Machine

/-- Before the first reset after power-up no operation but RESET is defined (R242, I3). -/
def whenReset (s t : State) : Host.Outcome State Fault Refusal :=
  if s.initialised then .next t else .refused .beforeFirstReset

/-! ### Named updates -/

/-- `emit(v, last)` (R33). -/
def emit (v : Dur) (last : Bool) (s : State) : State := { s with out := ⟨true, v, last⟩ }

/-- Writes the coalescer's registers. -/
def setCo (c : Coalescer) (s : State) : State := { s with co := c }

/-- Records the result of a combinational operation run by itself (log 11). -/
def setResult (r : OpResult) (s : State) : State := { s with opResult := r }

/-- `raise Fault(code)` (R214): the two error registers, and nothing else. -/
def raiseFault (c : ErrCode) (s : State) : State := { s with fault := true, err := c }

/-- `reject(code)` (R212): `err_code` and the phase, and nothing else. -/
def reject (c : ErrCode) (s : State) : State :=
  { s with err := c, sq := { s.sq with phase := .idle } }

/-- Run start (R184): the payload registers, a fresh coalescer, index 0. The host counts the words of
the new run from 0 (R246). -/
def startRun (power : Bool) (x y : Payload) (s : State) : State :=
  { s with
    sq := ⟨power, .payloadComputed, 0⟩
    pkx := x
    pky := y
    co := freshCoalescer
    err := .none
    received := [] }

/-- A word may be taken in this step only when `cmd_ready` = 1; else it waits (R181, R183). -/
def takeCommand (effect : State → State) (s : State) : State :=
  if cmdReady s then effect s else s

/-! ### The coalescer's requests -/

/-- HOLD (R100 to R103, R106, R108): the pseudocode of 40_pulse_encoder.md section 2. A HOLD that
cannot be performed in this step waits: the state is unchanged (R108, R215). -/
def coalescerHold (lv : Level) (d : Dur) (s : State) : State :=
  if s.fault then s
  else if s.co.closed then raiseFault .reuse s
  else if d = 0#16 then s
  else if lv = s.co.level then
    if s.co.acc.toNat + d.toNat > 0xFFFF then raiseFault .overflow s
    else setCo { s.co with acc := s.co.acc + d } s
  else if s.out.valid then s
  else setCo { s.co with level := lv, acc := d } (emit s.co.acc false s)

/-- FINISH (R104 to R106, R108): the pseudocode of 40_pulse_encoder.md section 3. -/
def coalescerFinish (s : State) : State :=
  if s.fault then s
  else if s.co.closed then raiseFault .reuse s
  else if s.out.valid then s
  else setCo { s.co with closed := true } (emit s.co.acc true s)

/-- An illegal hold-request word (R107), whatever `co.closed` holds. -/
def coalescerIllegal (s : State) : State :=
  if s.fault then s else raiseFault .illegalReq s

/-- Issues the HOLD requests of a composite, in order; each is performed by a later step (opening of
41_protocol_elements.md; log 10). In a faulted block nothing is issued (R215). -/
def issueHolds (hs : List Hold) (s : State) : State :=
  if s.fault then s else { s with issuing := s.issuing ++ hs }

/-- Evaluates a combinational operation by itself (42_payload.md, opening; log 11). -/
def evaluate (r : OpResult) (s : State) : State :=
  if s.fault then s else setResult r s

/-! ### The host's actions on the block -/

/-- Hands the output word over (R193, R60). The word joins the host's record of the run and, when it
is the last one, ends the run (R246; log 15). The emptied register holds no value the spec gives
(R33; log 3). -/
def handOver (s : State) : State :=
  let words := s.received ++ [⟨s.out.data, s.out.last⟩]
  { s with
    out := ⟨false, Config.freeDur s.freeCount, Config.freeBit s.freeCount⟩
    received := if s.out.last then [] else words
    results := if s.out.last then s.results ++ [.complete words s.err] else s.results
    freeCount := s.freeCount + 1 }

/-- POP (R193): without a word it has no effect. -/
def popWord (s : State) : State := if s.out.valid then handOver s else s

/-- A run has begun and its last word has not been popped (R247; log 15). -/
def runOpen (s : State) : Bool :=
  s.initialised &&
    (running s.sq.phase || s.out.valid || !s.received.isEmpty ||
      (!s.co.closed && s.co.acc != 0#16))

/-- RESET (R240): the reset values, and free values where the spec leaves a register unspecified
(R39, R33; log 2, log 3). The host discards the prefix of a run cut short (R247). -/
def loadReset (s : State) : State :=
  let n := s.freeCount
  { s with
    co := freshCoalescer
    pkx := ⟨Config.freeByte n, Config.freeByte (n + 1), Config.freeByte (n + 2)⟩
    pky := ⟨Config.freeByte (n + 3), Config.freeByte (n + 4), Config.freeByte (n + 5)⟩
    sq := ⟨Config.freeBit n, .idle, 0⟩
    err := .none
    fault := false
    out := ⟨false, Config.freeDur n, Config.freeBit (n + 1)⟩
    received := []
    results := if runOpen s then s.results ++ [.cut] else s.results
    initialised := true
    issuing := []
    freeCount := n + 6 }

/-! ### The sequencer's update -/

/-- `phase_after(n)` (R190). -/
def phaseAfter (n : Nat) : Phase :=
  if n ≤ 99 then .payloadComputed
  else if n ≤ 197 then .frame1Emitted
  else if n = 198 then .frame2Emitted
  else .finished

/-- The sequencer's part of its step (R189): the index advances by 1 and the phase follows it. -/
def advance (s : State) : State :=
  { s with sq := { s.sq with
      idx := s.sq.idx + 1
      phase := phaseAfter (s.sq.idx.toNat + 1) } }

/-- A request that faults leaves `sq.idx` and `sq.phase` as they are (R214). -/
def advanceUnlessFault (s : State) : State := if s.fault then s else advance s

end Sys2Proof.Machine
end

