-- ==== Sys2Proof/Machine/Coalesce.lean ====
section
/-! DEFINITION. The HREQ family: the requests of the run-length coalescer (40_pulse_encoder.md). -/

namespace Sys2Proof.Machine

/-- HOLD (R100 to R103, R106, R108). -/
def execHold (lv : Level) (d : Dur) (s : State) : Host.Outcome State Fault Refusal :=
  whenReset s (coalescerHold lv d s)

/-- FINISH (R104 to R106, R108). -/
def execFinish (s : State) : Host.Outcome State Fault Refusal :=
  whenReset s (coalescerFinish s)

/-- ILLEGAL_HREQ (R107). -/
def execIllegalHreq (s : State) : Host.Outcome State Fault Refusal :=
  whenReset s (coalescerIllegal s)

end Sys2Proof.Machine
end

