-- ==== Sys2Proof/Machine/Command.lean ====
section
/-! DEFINITION. The CMD family: the step that takes a command word (43_transmissions.md R184 to R186,
60_exceptions.md R212). A word that cannot be taken in this step waits. -/

namespace Sys2Proof.Machine

/-- ENCODE_POWER_ON (R184, R185): both frames carry `PACK(m, s, t)`. The temperature is validated in
the same step (R160, log 18). -/
def execEncodePowerOn (m : Mode) (sp : Speed) (t : Byte) (s : State) :
    Host.Outcome State Fault Refusal :=
  whenReset s <| takeCommand
    (if validTemp t then startRun true (packBytes m sp t) (packBytes m sp t)
      else reject .tempRange) s

/-- ENCODE_POWER_OFF (R184, R186): the frames of `ROM_OFF`, whatever the checked fields hold (R171). -/
def execEncodePowerOff (_m : Mode) (_sp : Speed) (t : Byte) (s : State) :
    Host.Outcome State Fault Refusal :=
  whenReset s <| takeCommand
    (if validTemp t then startRun false offFirst offSecond else reject .tempRange) s

/-- REJECT_RESERVED (R212, R74). -/
def execRejectReserved (s : State) : Host.Outcome State Fault Refusal :=
  whenReset s <| takeCommand (reject .reserved) s

/-- REJECT_BAD_MODE (R212, R72). -/
def execRejectBadMode (s : State) : Host.Outcome State Fault Refusal :=
  whenReset s <| takeCommand (reject .badMode) s

/-- REJECT_TEMP_RANGE (R212, R160). -/
def execRejectTempRange (s : State) : Host.Outcome State Fault Refusal :=
  whenReset s <| takeCommand (reject .tempRange) s

end Sys2Proof.Machine
end

