-- ==== Sys2Proof/Machine/Elements.lean ====
section
/-! DEFINITION. The composite operations of 41_protocol_elements.md: each issues its list of HOLDs. -/

namespace Sys2Proof.Machine

/-- LEAD_IN (R130). -/
def execLeadIn (s : State) : Host.Outcome State Fault Refusal :=
  whenReset s (issueHolds holdsLeadIn s)

/-- BIT_ONE (R131). -/
def execBitOne (s : State) : Host.Outcome State Fault Refusal :=
  whenReset s (issueHolds holdsBitOne s)

/-- BIT_ZERO (R132). -/
def execBitZero (s : State) : Host.Outcome State Fault Refusal :=
  whenReset s (issueHolds holdsBitZero s)

/-- STOP (R133). -/
def execStop (s : State) : Host.Outcome State Fault Refusal :=
  whenReset s (issueHolds holdsStop s)

/-- ENCODE_BYTE (R134). -/
def execEncodeByte (b : Byte) (s : State) : Host.Outcome State Fault Refusal :=
  whenReset s (issueHolds (holdsByte b) s)

/-- ENCODE_PAIR (R135). -/
def execEncodePair (b : Byte) (s : State) : Host.Outcome State Fault Refusal :=
  whenReset s (issueHolds (holdsPair b) s)

/-- ENCODE_FRAME (R136). -/
def execEncodeFrame (a b c : Byte) (withStop : Bool) (s : State) :
    Host.Outcome State Fault Refusal :=
  whenReset s (issueHolds (holdsFrame ⟨a, b, c⟩ withStop) s)

end Sys2Proof.Machine
end

