-- ==== Sys2Proof/Machine/HostPort.lean ====
section
/-! DEFINITION. The host's actions on the block: POP (43_transmissions.md R193) and RESET
(70_reset_and_hazards.md R240). -/

namespace Sys2Proof.Machine

/-- POP (R193), in any phase and also while `fault` = 1. -/
def execPop (s : State) : Host.Outcome State Fault Refusal := whenReset s (popWord s)

/-- RESET (R240), in every state, also before the first reset (R242). -/
def execReset (s : State) : Host.Outcome State Fault Refusal := .next (loadReset s)

/-- The reference rendering of popped words (R196): decimal, a comma after every word but the last.
The block produces no text; a host may. -/
def render (ws : List OutWord) : String :=
  String.join (ws.map fun w => toString w.data.toNat ++ (if w.last then "" else ","))

end Sys2Proof.Machine
end

