-- ==== Sys2Proof/Machine/Packer.lean ====
section
/-! DEFINITION. The combinational operations of 42_payload.md run by themselves: they write no register
of the block, and leave their result in the model's `opResult` (log 11). -/

namespace Sys2Proof.Machine

/-- VALIDATE (R160): the verdict E_NONE or E_TEMP_RANGE. -/
def execValidate (t : Byte) (s : State) : Host.Outcome State Fault Refusal :=
  whenReset s (evaluate (.verdict (if validTemp t then .none else .tempRange)) s)

/-- GREY (R163). -/
def execGrey (x : BitVec 4) (s : State) : Host.Outcome State Fault Refusal :=
  whenReset s (evaluate (.code (greyCode x)) s)

/-- PACK (R169). -/
def execPack (m : Mode) (sp : Speed) (t : Byte) (s : State) : Host.Outcome State Fault Refusal :=
  whenReset s (evaluate (.bytes (packBytes m sp t)) s)

end Sys2Proof.Machine
end

