-- ==== Sys2Proof/Machine/Dispatch.lean ====
section
/-! DEFINITION. One arm per constructor of `Instr`. -/

namespace Sys2Proof.Machine

def exec (i : Instr) (s : State) : Host.Outcome State Fault Refusal :=
  match i with
  | .encodePowerOn m sp t => Sys2Proof.Machine.execEncodePowerOn m sp t s
  | .encodePowerOff m sp t => Sys2Proof.Machine.execEncodePowerOff m sp t s
  | .rejectReserved _ _ _ _ _ => Sys2Proof.Machine.execRejectReserved s
  | .rejectBadMode _ _ _ _ => Sys2Proof.Machine.execRejectBadMode s
  | .rejectTempRange _ _ _ _ => Sys2Proof.Machine.execRejectTempRange s
  | .hold lv d => Sys2Proof.Machine.execHold lv d s
  | .finish => Sys2Proof.Machine.execFinish s
  | .illegalHreq _ _ _ _ => Sys2Proof.Machine.execIllegalHreq s
  | .leadIn => Sys2Proof.Machine.execLeadIn s
  | .bitOne => Sys2Proof.Machine.execBitOne s
  | .bitZero => Sys2Proof.Machine.execBitZero s
  | .stop => Sys2Proof.Machine.execStop s
  | .encodeByte b => Sys2Proof.Machine.execEncodeByte b s
  | .encodePair b => Sys2Proof.Machine.execEncodePair b s
  | .encodeFrame a b c withStop => Sys2Proof.Machine.execEncodeFrame a b c withStop s
  | .validate t => Sys2Proof.Machine.execValidate t s
  | .grey x => Sys2Proof.Machine.execGrey x s
  | .pack m sp t => Sys2Proof.Machine.execPack m sp t s
  | .pop => Sys2Proof.Machine.execPop s
  | .reset => Sys2Proof.Machine.execReset s

end Sys2Proof.Machine
end

