-- ==== Sys2Proof/Machine/Fetch.lean ====
section
/-! DEFINITION. Which transition the next step takes (00_scope.md R5, 60_exceptions.md R217): reset
first, then the host's planned action, then the block's turn. Step.lean only carries it out. -/

namespace Sys2Proof.Machine

/-- What the next step does. Each case carries the state it starts from. -/
inductive Activity where
  /-- No operation: a change of the host's lines, or a block that waits. -/
  | settle (t : State)
  /-- Runs an instruction on the state. -/
  | run (i : Instr) (t : State)
  /-- The sequencer issues a request of its hold program (R189). -/
  | sequence (i : Instr) (t : State)
  /-- A faulted block with nothing left to happen (R215, I12). -/
  | halt (c : ErrCode)
  /-- No transition is defined. -/
  | refuse (r : Refusal)

/-- The host changes the lines it drives; the handshake lines of the block's registers stay (log 5). -/
def drive (a : HostAct) (s : State) : State :=
  match a with
  | .yield => s
  | .offerCmd w => { s with cmdOffers := s.cmdOffers ++ [w] }
  | .withdrawCmd => { s with cmdOffers := [] }
  | .setReady b => { s with outReady := b }
  | .assertRst => { s with rst := true }
  | .request w => { s with hreqs := s.hreqs ++ [w] }
  | .withdrawReq => { s with hreqs := [] }
  | .perform _ => s

/-- The word the block takes from the command port, and the state in which the handshake is complete:
the word driven or, when the host changed it while `cmd_valid` = 1, any of the words offered since
`cmd_valid` rose (R181, R244; log 7). -/
def takenWord (s : State) : Option (CmdWord × State) :=
  match s.cmdOffers with
  | [] => none
  | [w] => some (w, { s with cmdOffers := [] })
  | ws => some (ws.getD (Config.freeChoice s.freeCount % ws.length) 0,
      { s with cmdOffers := [], freeCount := s.freeCount + 1 })

/-- The host can run a composite by itself only outside the integrated block, with which it interacts
through the ports alone (R4, R113; log 10, log 11). -/
def performable (i : Instr) (s : State) : Bool := s.alone && formatOf i == .composite

/-- Nothing is enabled: the block waits (R108, R181, R245), or is faulted for good (R215). -/
def stall (s : State) : Activity :=
  if s.fault && s.script.isEmpty then .halt s.err else .settle s

/-- The request port of a coalescer on its own (R113). -/
def portTurn (s : State) : Activity :=
  match s.hreqs with
  | [] => stall s
  | w :: ws => if hreqReady w s then .run (decodeHreq w) { s with hreqs := ws } else stall s

/-- The integrated block's turn: a sequencer step (R189) or the taking of a command (R181). -/
def blockTurn (s : State) : Activity :=
  if running s.sq.phase then
    match prog s.pkx s.pky s.sq.idx.toNat with
    | none => .refuse .outsideProgram
    | some i => if requestReady i s then .sequence i s else stall s
  else if cmdReady s then
    match takenWord s with
    | none => stall s
    | some (w, t) => .run (decodeCmd w) t
  else stall s

/-- The turn of the block, the host having no action planned: the hand-over of a word, then the rest of
a composite, then the device's own next transition. -/
def deviceTurn (s : State) : Activity :=
  if !s.initialised then .refuse .beforeFirstReset
  else if s.out.valid && s.outReady then .run .pop s
  else if s.fault then stall s
  else
    match s.issuing with
    | h :: hs =>
      if requestReady (.hold h.level h.dur) s then
        .run (.hold h.level h.dur) { s with issuing := hs }
      else stall s
    | [] => if s.alone then portTurn s else blockTurn s

/-- The next step's activity. Reset takes effect before any other step, and is then released (R217,
R240; log 5). -/
def activity (s : State) : Activity :=
  if s.rst then .run .reset { s with rst := false }
  else
    match s.script with
    | [] => deviceTurn s
    | .yield :: as => deviceTurn { s with script := as }
    | .perform i :: as =>
      if performable i s then .run i { s with script := as } else .settle { s with script := as }
    | a :: as => .settle (drive a { s with script := as })

/-- A word stored where the next step takes its instruction: on the command port of an integrated
block, or on the request port of a coalescer on its own, ready to be taken. -/
def presentWord (p : PortWord) (s : State) : State :=
  let t := { s with
    rst := false
    script := []
    initialised := true
    fault := false
    issuing := []
    out := { s.out with valid := false } }
  match p with
  | .cmd w =>
    { t with alone := false, cmdOffers := [w], sq := { s.sq with phase := .idle } }
  | .hreq w => { t with alone := true, hreqs := [w] }

end Sys2Proof.Machine
end

