-- ==== Sys2Proof/Machine/Step.lean ====
section
/-! DEFINITION. One step of the machine (00_scope.md R5). -/

namespace Sys2Proof.Machine

/-- One transition of the block or one action of the host. A sequencer step is the request's effect and
the sequencer's update in one (R189). -/
def step (s : State) : Host.Outcome State Fault Refusal :=
  match activity s with
  | .settle t => .next t
  | .run i t => exec i t
  | .sequence i t =>
    match exec i t with
    | .next u => .next (advanceUnlessFault u)
    | .fault f => .fault f
    | .refused r => .refused r
  | .halt c => .fault (.halted c)
  | .refuse r => .refused r

/-- The state in which the next step takes the opcode-table word `w` of `nbits` bits (log 17). -/
def State.withFetchWord (s : State) (nbits w : Nat) : State :=
  match portWordOf nbits w with
  | .ok p => presentWord p s
  | .error _ => s

end Sys2Proof.Machine
end

