-- ==== Sys2Proof/Safety.lean ====
section
/-! DEFINITION. What a safe run is: the words a run must deliver (R191), the invariants of the integrated
block and of the coalescer (R25, R26, R35, R111, R192), and the terms the statements use. -/

namespace Sys2Proof.Machine

/-- `n` steps, stopping at the first fault or refusal. -/
def runN (n : Nat) (s : State) : Host.Outcome State Fault Refusal := Host.Core.run Sys2Proof.core n s

/-! ### The words of a run -/

/-- The 198 words of a run over the payloads `x` and `y`: word `k` is the duration of `prog[k]`, and
only word 197 is marked `last` (R191). -/
def runWords (x y : Payload) : List OutWord :=
  (progHolds x y).mapIdx fun k h => ⟨h.dur, k == 197⟩

/-- A command the block accepts (R76). -/
inductive ValidCommand where
  | on (m : Mode) (sp : Speed) (t : Byte)
  | off
deriving DecidableEq, Repr

/-- The first frame's payload of an accepted command (R26, R184). -/
def firstPayload : ValidCommand → Payload
  | .on m sp t => packBytes m sp t
  | .off => offFirst

/-- The second frame's payload of an accepted command (R26, R184). -/
def secondPayload : ValidCommand → Payload
  | .on m sp t => packBytes m sp t
  | .off => offSecond

/-- The temperature of a power-on command is in range (R160). -/
def inRange : ValidCommand → Bool
  | .on _ _ t => validTemp t
  | .off => true

/-- The words an accepted command sends (R185, R186, R191). -/
def commandWords (c : ValidCommand) : List OutWord := runWords (firstPayload c) (secondPayload c)

/-- The word waiting in the output register, if any. -/
def pendingWord (s : State) : List OutWord :=
  if s.out.valid then [⟨s.out.data, s.out.last⟩] else []

/-- Every word the run has emitted so far, popped or still waiting (R67). -/
def emittedWords (s : State) : List OutWord := s.received ++ pendingWord s

/-- The words of a list of durations: only the final one is marked `last` (R83, R112). -/
def markLast (ds : List Nat) : List OutWord :=
  ds.mapIdx fun k d => ⟨BitVec.ofNat 16 d, k + 1 == ds.length⟩

/-! ### The integrated block -/

/-- The coalescer after the first `k` requests of a run: fresh, then holding the last HOLD issued
(R191, R192). -/
def coalescerAfter (x y : Payload) (k : Nat) : Coalescer :=
  if k = 0 then freshCoalescer
  else match (progHolds x y)[k - 1]? with
    | some h => ⟨h.level, h.dur, false⟩
    | none => freshCoalescer

/-- The phase that goes with an index while a run is on or over (R35). -/
def phaseOfIdx (i : Nat) : Phase :=
  if i ≤ 99 then .payloadComputed
  else if i ≤ 197 then .frame1Emitted
  else if i = 198 then .frame2Emitted
  else .finished

/-- An ended run delivered exactly the words of an accepted command, with no error (R191, R192). -/
def resultSound : RunResult → Prop
  | .complete ws e => (∃ c : ValidCommand, inRange c = true ∧ ws = commandWords c) ∧ e = .none
  | .cut => True

/-- The invariant of the integrated block: what its registers, its output register and the host's record
hold between any two steps (R26, R35, R191, R192). -/
structure RunInv (s : State) : Prop where
  /-- No fault is ever raised (R192). -/
  noFault    : s.fault = false
  /-- Only the sequencer issues requests (R113). -/
  noIssue    : s.issuing = []
  /-- In a run and after it, `err_code` is E_NONE (R184, R192). -/
  noErr      : s.sq.phase ≠ .idle → s.err = .none
  /-- Outside Idle the index is at most 199 and the phase is the index's (R28, R35). -/
  phaseIdx   : s.sq.phase ≠ .idle → s.sq.idx.toNat ≤ 199 ∧ s.sq.phase = phaseOfIdx s.sq.idx.toNat
  /-- Outside Idle the payload registers hold an accepted command's bytes (R26, R29). -/
  payload    : s.sq.phase ≠ .idle → ∃ c : ValidCommand, inRange c = true ∧
    s.sq.power = (c != .off) ∧ s.pkx = firstPayload c ∧ s.pky = secondPayload c
  /-- In Idle no word of a run is waiting or recorded (R183, R213). -/
  idleEmpty  : s.sq.phase = .idle → s.out.valid = false ∧ s.received = []
  /-- While requests are issued the coalescer holds the last one, and the words emitted are the ones
  before it (R191). -/
  inRun      : running s.sq.phase = true →
    s.co = coalescerAfter s.pkx s.pky s.sq.idx.toNat ∧
    emittedWords s = (runWords s.pkx s.pky).take (s.sq.idx.toNat - 1)
  /-- After FINISH the coalescer is closed and all words are emitted; when the host has popped the last
  one the record is empty again (R104, R191, R194). -/
  afterRun   : s.sq.phase = .finished → s.co.closed = true ∧
    (s.out.valid = true ∧ emittedWords s = runWords s.pkx s.pky ∨
      s.out.valid = false ∧ s.received = [])

/-- On an integrated block every ended run was sound and, once the block has been reset, `RunInv`
holds. -/
def IntegratedInv (s : State) : Prop :=
  s.alone = false →
    (∀ r ∈ s.results, resultSound r) ∧ (s.initialised = true → RunInv s)

/-- R35: while `fault` = 0 and outside Idle, each phase goes with its range of indices. -/
def PhaseIndexInv (s : State) : Prop :=
  s.fault = false → s.sq.phase ≠ .idle →
    (s.sq.phase = .payloadComputed ↔ s.sq.idx.toNat ≤ 99) ∧
    (s.sq.phase = .frame1Emitted ↔ 100 ≤ s.sq.idx.toNat ∧ s.sq.idx.toNat ≤ 197) ∧
    (s.sq.phase = .frame2Emitted ↔ s.sq.idx.toNat = 198) ∧
    (s.sq.phase = .finished ↔ s.sq.idx.toNat = 199)

/-- The block can take a command in its next turn: `cmd_ready` = 1 (R183), and neither the host nor a
reset goes first. -/
structure TakesCommand (s : State) (w : CmdWord) : Prop where
  isReset  : s.initialised = true
  isWhole  : s.alone = false
  ready    : cmdReady s = true
  offered  : s.cmdOffers = [w]
  noRst    : s.rst = false
  noScript : s.script = []
  noIssue  : s.issuing = []

/-! ### The coalescer -/

/-- The invariant behind R56 and R111, on either device: a waiting word is `last` exactly when FINISH
emitted it, and as long as the coalescer is open its level is that of the next word's position. -/
def LevelInv (s : State) : Prop :=
  s.initialised = true →
    (s.out.valid = true → s.out.last = s.co.closed) ∧
    (s.co.closed = false → s.co.level = levelAt (emittedWords s).length)

/-- The device's own turn: it has been reset, no reset and no action of the host goes first, and no
waiting word is handed over. -/
structure DeviceMoves (s : State) : Prop where
  isReset  : s.initialised = true
  noFault  : s.fault = false
  noRst    : s.rst = false
  noScript : s.script = []
  noPop    : (s.out.valid && s.outReady) = false

/-- A coalescer on its own, fresh, its output port drained by the host, with these requests to come
(R113). -/
structure FreshAlone (s : State) (ws : List HreqWord) : Prop where
  isReset  : s.initialised = true
  isAlone  : s.alone = true
  noFault  : s.fault = false
  fresh    : s.co = freshCoalescer
  empty    : s.out.valid = false
  drained  : s.outReady = true
  noWords  : s.received = []
  requests : s.hreqs = ws
  noRst    : s.rst = false
  noScript : s.script = []
  noIssue  : s.issuing = []

/-- The hold-request word of a HOLD (R78). -/
def holdWord (h : Hold) : HreqWord := hreqWordOf 0 0 (levelBit h.level) h.dur

/-- The pending run after a list of HOLDs from the fresh state: the level of the last nonzero HOLD, and
the sum of the nonzero HOLDs of that level since the level last changed (R25). -/
def pendingRun (rs : List Hold) : Level × Nat :=
  match (rs.filter fun h => h.dur != 0#16).reverse with
  | [] => (.high, 0)
  | h :: more =>
    (h.level, (((h :: more).takeWhile fun g => g.level == h.level).map fun g => g.dur.toNat).sum)

/-- A faulted block (R215): never a normal end of a run. -/
def Faulted (s : State) : Prop := s.fault = true

end Sys2Proof.Machine
end

