-- ==== Sys2Proof/Certificates/Slice0/Obligations.lean ====
section
/-! DEFINITION. The statements about the IR protocol encoder, from the numbered rules of spec/. -/

open Sys2Proof Sys2Proof.Machine

/-! ### Encoding (30_encoding.md) -/

/-- The example words of 30_encoding.md sections 2 and 3. -/
def Obligations.ExampleWordsDecode : Prop :=
  decodeTableWord 16 0x9019 = some (.encodePowerOn .cool .auto 25) ∧
  decodeTableWord 16 0x1019 = some (.encodePowerOff .cool .auto 25) ∧
  decodeTableWord 16 0x901E = some (.encodePowerOn .cool .auto 30) ∧
  decodeTableWord 16 0x9010 = some (.rejectTempRange true .cool .auto 16) ∧
  decodeTableWord 16 0xD019 = some (.rejectBadMode true 5 .auto 25) ∧
  decodeTableWord 16 0x9119 = some (.rejectReserved true 1 .auto 1 25) ∧
  decodeTableWord 32 0x00011130 = some (.hold .high 4400) ∧
  decodeTableWord 32 0x00001464 = some (.hold .low 5220) ∧
  decodeTableWord 32 0x40000000 = some .finish ∧
  decodeTableWord 32 0x40000001 = some (.illegalHreq 1 0 false 1)

/-- Decoding the word of a well-formed instruction gives the instruction back, for every operand. -/
def Obligations.DecodeOfEncode : Prop :=
  ∀ (i : Instr) (w : PortWord), WellFormed i = true → encode i = some w → decode w = i

/-- Every word of either port is the word of the one well-formed instruction it decodes to. -/
def Obligations.EncodeOfDecode : Prop :=
  ∀ w : PortWord, WellFormed (decode w) = true ∧ encode (decode w) = some w

/-- R78, R79, R81: every hold-request word is exactly one of HOLD, FINISH or illegal. -/
def Obligations.HoldRequestWordIsExactlyOne : Prop :=
  ∀ w : HreqWord,
    (w.extractLsb' 17 15 = 0#15 →
      decodeHreq w = .hold (if w.getLsbD 16 then .high else .low) (w.extractLsb' 0 16)) ∧
    (w = 0x40000000#32 → decodeHreq w = .finish) ∧
    (w.extractLsb' 17 15 ≠ 0#15 → w ≠ 0x40000000#32 →
      ∃ op r lv d, decodeHreq w = .illegalHreq op r lv d) ∧
    ¬(w.extractLsb' 17 15 = 0#15 ∧ w = 0x40000000#32)

/-- R76: every command word decodes to exactly one operation, by the checks in their order, also when
`P` = 0; the mode and speed of an accepted word are those of the codes of R72 and R73. -/
def Obligations.CommandWordIsExactlyOne : Prop :=
  ∀ w : CmdWord,
    (w.extractLsb' 8 2 ≠ 0#2 → ∃ p m sp z t, decodeCmd w = .rejectReserved p m sp z t) ∧
    (w.extractLsb' 8 2 = 0#2 → 5 ≤ (w.extractLsb' 12 3).toNat →
      ∃ p m sp t, decodeCmd w = .rejectBadMode p m sp t) ∧
    (w.extractLsb' 8 2 = 0#2 → (w.extractLsb' 12 3).toNat ≤ 4 →
      ¬(17 ≤ (w.extractLsb' 0 8).toNat ∧ (w.extractLsb' 0 8).toNat ≤ 30) →
      ∃ p m sp t, decodeCmd w = .rejectTempRange p m sp t) ∧
    (w.extractLsb' 8 2 = 0#2 → (w.extractLsb' 12 3).toNat ≤ 4 →
      17 ≤ (w.extractLsb' 0 8).toNat → (w.extractLsb' 0 8).toNat ≤ 30 →
      ∃ m sp,
        w.extractLsb' 12 3 = (match m with
          | .auto => 0#3 | .cool => 1#3 | .dry => 2#3 | .fan => 3#3 | .warm => 4#3) ∧
        w.extractLsb' 10 2 = (match sp with
          | .auto => 0#2 | .low => 1#2 | .middle => 2#2 | .high => 3#2) ∧
        decodeCmd w = (if w.getLsbD 15 then .encodePowerOn m sp (w.extractLsb' 0 8)
          else .encodePowerOff m sp (w.extractLsb' 0 8)))

/-- The output word has `out_last` in bit 16 and `out_data` in bits 15:0, and nothing is lost. -/
def Obligations.OutputWordRoundTrip : Prop :=
  ∀ o : OutWord, decodeOut (encodeOut o) = o ∧ (encodeOut o).getLsbD 16 = o.last ∧
    (encodeOut o).extractLsb' 0 16 = o.data

/-! ### Payload (42_payload.md) -/

/-- R164: the transform over the legal range is the listed codes; they are distinct, and each differs
from the one before it in exactly one bit. -/
def Obligations.GrayCodesOfLegalTemperatures : Prop :=
  (List.range 14).map (fun k => greyCode (tempOffset (BitVec.ofNat 8 (17 + k)))) =
    [0b0000#4, 0b0001#4, 0b0011#4, 0b0010#4, 0b0110#4, 0b0111#4, 0b0101#4, 0b0100#4, 0b1100#4,
      0b1101#4, 0b1111#4, 0b1110#4, 0b1010#4, 0b1011#4] ∧
  (∀ k < 14, (tempOffset (BitVec.ofNat 8 (17 + k))).toNat = k) ∧
  (∀ j < 14, ∀ k < 14, greyCode (BitVec.ofNat 4 j) = greyCode (BitVec.ofNat 4 k) → j = k) ∧
  (∀ k < 13, ∃ b < 4, ∀ i < 4,
    ((greyCode (BitVec.ofNat 4 k)).getLsbD i ≠ (greyCode (BitVec.ofNat 4 (k + 1))).getLsbD i ↔ i = b))

/-- R166, R167, R168: byte a is 0xB2; byte b holds the speed code above the marker; byte c holds the
Gray code of `t - 17` above the mode code. For every value of the OPEN parameters. -/
def Obligations.PackPlacesItsFields : Prop :=
  ∀ (m : Mode) (sp : Speed) (t : Byte), 17 ≤ t.toNat → t.toNat ≤ 30 →
    (packBytes m sp t).a = 0xB2#8 ∧
    (packBytes m sp t).b = ((Config.speedCode sp).setWidth 8 <<< 5) ||| Config.bMarker.setWidth 8 ∧
    (packBytes m sp t).b.extractLsb' 5 3 = Config.speedCode sp ∧
    (packBytes m sp t).b.extractLsb' 0 5 = Config.bMarker ∧
    ((packBytes m sp t).c.extractLsb' 4 4).toNat = ((t.toNat - 17) / 2).xor (t.toNat - 17) ∧
    (packBytes m sp t).c.extractLsb' 0 4 = Config.modeCode m

/-- R172: a power-off transmission differs from every power-on transmission in the words of byte b of
the first frame, words 34 to 49. -/
def Obligations.PowerOffDiffersInByteB : Prop :=
  ∀ (m : Mode) (sp : Speed) (t : Byte),
    (firstPayload .off).b = 0x7B#8 ∧ (firstPayload (.on m sp t)).b ≠ 0x7B#8 ∧
    ∃ k, 34 ≤ k ∧ k ≤ 49 ∧ (commandWords .off)[k]? ≠ (commandWords (.on m sp t))[k]?

/-! ### Elements, bytes, pairs and frames (41_protocol_elements.md) -/

/-- R52, R134: a byte is sent MSB first, two HOLDs a bit, 16 in all. -/
def Obligations.ByteIsSentMsbFirst : Prop :=
  ∀ b : Byte, (holdsByte b).length = 16 ∧ ∀ i < 8,
    (holdsByte b)[2 * i]? = some ⟨.high, 540⟩ ∧
    (holdsByte b)[2 * i + 1]? = some ⟨.low, if b.getLsbD (7 - i) then 1620 else 540⟩

/-- R138: the Low of each bit of the second byte of a pair is 1620 exactly when that of the first
byte's bit is 540. -/
def Obligations.PairSendsComplement : Prop :=
  ∀ b : Byte, (holdsPair b).length = 32 ∧ ∀ i < 8, ∃ d e : Dur,
    (holdsPair b)[2 * i + 1]? = some ⟨.low, d⟩ ∧ (holdsPair b)[16 + 2 * i + 1]? = some ⟨.low, e⟩ ∧
    (e = 1620 ↔ d = 540) ∧ (e = 540 ↔ d = 1620)

/-- R137: the closed form of a frame over its frame word. -/
def Obligations.FrameClosedForm : Prop :=
  ∀ (p : Payload) (withStop : Bool),
    (holdsFrame p withStop).length = (if withStop then 100 else 98) ∧
    (holdsFrame p withStop)[0]? = some ⟨.high, 4400⟩ ∧
    (holdsFrame p withStop)[1]? = some ⟨.low, 4400⟩ ∧
    (∀ j < 48, (holdsFrame p withStop)[2 + 2 * j]? = some ⟨.high, 540⟩ ∧
      (holdsFrame p withStop)[3 + 2 * j]? =
        some ⟨.low, if (p.a ++ (p.a ^^^ 0xFF#8) ++ p.b ++ (p.b ^^^ 0xFF#8) ++ p.c ++
          (p.c ^^^ 0xFF#8)).getLsbD (47 - j) then 1620 else 540⟩) ∧
    (holdsFrame p withStop)[98]? = (if withStop then some ⟨.high, 540⟩ else none) ∧
    (holdsFrame p withStop)[99]? = (if withStop then some ⟨.low, 5220⟩ else none)

/-- R139: every pair sends eight ones and eight zeros and every frame 24 of each, with the stop and without
it, so the durations of a frame add up to the same sum. -/
def Obligations.FrameDurationIsConstant : Prop :=
  (∀ b : Byte,
    (holdsPair b).countP (fun h => h.level == .low && h.dur == 1620#16) = 8 ∧
    (holdsPair b).countP (fun h => h.level == .low && h.dur == 540#16) = 8) ∧
  ∀ (p : Payload) (withStop : Bool),
    (holdsFrame p withStop).countP (fun h => h.level == .low && h.dur == 1620#16) = 24 ∧
    (holdsFrame p withStop).countP (fun h => h.level == .low && h.dur == 540#16) = 24 ∧
    ((holdsFrame p withStop).map fun h => h.dur.toNat).sum = (if withStop then 92320 else 86560)

/-- R186, R187: the power-off request sequence, element by element, is a stopped frame of 0xB2, 0x7B,
0xE0 and an open frame of 0xB2, 0x00, 0x00. -/
def Obligations.PowerOffSequenceIsTwoFrames : Prop :=
  holdsFrame ⟨0xB2, 0x7B, 0xE0⟩ false ++ holdsStop ++ holdsLeadIn ++ holdsPair 0xB2 ++
      holdsPair 0x00 ++ holdsPair 0x00 =
    holdsFrame ⟨0xB2, 0x7B, 0xE0⟩ true ++ holdsFrame ⟨0xB2, 0x00, 0x00⟩ false ∧
  progHolds offFirst offSecond =
    holdsFrame ⟨0xB2, 0x7B, 0xE0⟩ true ++ holdsFrame ⟨0xB2, 0x00, 0x00⟩ false

/-- R188: the hold program is a stopped frame, an open frame and FINISH; entry by entry in closed form;
every HOLD has a legal word and a nonzero duration, High at even indices and Low at odd ones. -/
def Obligations.HoldProgramClosedForm : Prop :=
  ∀ x y : Payload,
    (∀ i < 100, prog x y i = (holdsFrame x true)[i]?.map fun h => .hold h.level h.dur) ∧
    (∀ i < 98, prog x y (100 + i) = (holdsFrame y false)[i]?.map fun h => .hold h.level h.dur) ∧
    prog x y 0 = some (.hold .high 4400) ∧ prog x y 1 = some (.hold .low 4400) ∧
    (∀ j < 48, prog x y (2 + 2 * j) = some (.hold .high 540) ∧
      prog x y (3 + 2 * j) =
        some (.hold .low (if (frameWord x).getLsbD (47 - j) then 1620 else 540))) ∧
    prog x y 98 = some (.hold .high 540) ∧ prog x y 99 = some (.hold .low 5220) ∧
    prog x y 100 = some (.hold .high 4400) ∧ prog x y 101 = some (.hold .low 4400) ∧
    (∀ j < 48, prog x y (102 + 2 * j) = some (.hold .high 540) ∧
      prog x y (103 + 2 * j) =
        some (.hold .low (if (frameWord y).getLsbD (47 - j) then 1620 else 540))) ∧
    prog x y 198 = some .finish ∧
    (∀ i < 198, ∃ h : Hold, prog x y i = some (.hold h.level h.dur) ∧ h.dur ≠ 0#16 ∧
      h.level = (if i % 2 = 0 then .high else .low) ∧
      decodeHreq (holdWord h) = .hold h.level h.dur) ∧
    ∀ i, 198 < i → prog x y i = none

/-! ### The coalescer (40_pulse_encoder.md) -/

/-- R100: a HOLD of duration 0 has no effect, whatever its level, also while a word is waiting. -/
def Obligations.ZeroHoldHasNoEffect : Prop :=
  ∀ (s : State) (lv : Level), s.initialised = true → s.fault = false → s.co.closed = false →
    exec (.hold lv 0) s = .next s

/-- R101: a HOLD of the current level adds its duration and emits nothing, up to a sum of 0xFFFF. -/
def Obligations.SameLevelHoldAccumulates : Prop :=
  ∀ (s : State) (d : Dur), s.initialised = true → s.fault = false → s.co.closed = false →
    d ≠ 0#16 → s.co.acc.toNat + d.toNat ≤ 0xFFFF →
    ∃ acc : Dur, acc.toNat = s.co.acc.toNat + d.toNat ∧
      exec (.hold s.co.level d) s = .next { s with co := ⟨s.co.level, acc, false⟩ }

/-- R102, R109: a HOLD of the other level emits the accumulated duration, be it 0, as a non-final word
and starts a new run. -/
def Obligations.LevelChangeEmits : Prop :=
  ∀ (s : State) (lv : Level) (d : Dur), s.initialised = true → s.fault = false →
    s.co.closed = false → d ≠ 0#16 → lv ≠ s.co.level → s.out.valid = false →
    exec (.hold lv d) s =
      .next { s with out := ⟨true, s.co.acc, false⟩, co := ⟨lv, d, false⟩ }

/-- R103: a sum above 0xFFFF raises E_OVERFLOW and writes no coalescer register. -/
def Obligations.OverflowFaults : Prop :=
  ∀ (s : State) (d : Dur), s.initialised = true → s.fault = false → s.co.closed = false →
    s.co.acc.toNat + d.toNat > 0xFFFF →
    exec (.hold s.co.level d) s = .next { s with fault := true, err := .overflow }

/-- R104, R105: FINISH emits the accumulated duration, be it 0, as the final word and closes. -/
def Obligations.FinishEmitsFinalWord : Prop :=
  ∀ s : State, s.initialised = true → s.fault = false → s.co.closed = false →
    s.out.valid = false →
    exec .finish s =
      .next { s with out := ⟨true, s.co.acc, true⟩, co := ⟨s.co.level, s.co.acc, true⟩ }

/-- R106: a HOLD, also of duration 0, or a FINISH after FINISH raises E_REUSE and does nothing else,
also while a word is waiting. -/
def Obligations.UseAfterFinishFaults : Prop :=
  ∀ (s : State) (lv : Level) (d : Dur), s.initialised = true → s.fault = false →
    s.co.closed = true →
    exec (.hold lv d) s = .next { s with fault := true, err := .reuse } ∧
    exec .finish s = .next { s with fault := true, err := .reuse }

/-- R107: an illegal word raises E_ILLEGAL_REQ and does nothing else, whatever `co.closed` holds. -/
def Obligations.IllegalRequestFaults : Prop :=
  ∀ (s : State) (op : BitVec 2) (r : BitVec 13) (lv : Bool) (d : Dur), s.initialised = true →
    s.fault = false →
    exec (.illegalHreq op r lv d) s = .next { s with fault := true, err := .illegalReq }

/-- R108: a request that would emit waits while a word is waiting: nothing changes, and on a coalescer
on its own the word stays on the request port. -/
def Obligations.EmittingRequestWaits : Prop :=
  (∀ (s : State) (lv : Level) (d : Dur), s.initialised = true → s.fault = false →
    s.co.closed = false → s.out.valid = true → d ≠ 0#16 → lv ≠ s.co.level →
    exec (.hold lv d) s = .next s) ∧
  (∀ s : State, s.initialised = true → s.fault = false → s.co.closed = false →
    s.out.valid = true → exec .finish s = .next s) ∧
  (∀ (s : State) (h : Hold) (ws : List HreqWord), DeviceMoves s → s.co.closed = false →
    s.out.valid = true → s.alone = true → s.issuing = [] → s.hreqs = holdWord h :: ws →
    h.dur ≠ 0#16 → h.level ≠ s.co.level → step s = .next s)

/-- Inserting a HOLD of duration 0 anywhere changes neither the words nor a fault. -/
def Obligations.ZeroHoldsDoNotChangeOutput : Prop :=
  ∀ (xs ys : List Hold) (lv : Level), coalesce (xs ++ ⟨lv, 0⟩ :: ys) = coalesce (xs ++ ys)

/-- Runs of same-level HOLDs that alternate in level, from High: one word a run, the sum of its
durations. -/
def Obligations.RunsCoalesceToTheirSums : Prop :=
  ∀ (first : List Dur) (more : List (List Dur)),
    (first.map BitVec.toNat).sum ≤ 0xFFFF →
    (∀ ds ∈ more, ds ≠ [] ∧ (∀ d ∈ ds, d ≠ 0#16) ∧ (ds.map BitVec.toNat).sum ≤ 0xFFFF) →
    coalesce (((first :: more).mapIdx fun k ds => ds.map fun d => (⟨levelAt k, d⟩ : Hold)).flatten) =
      .ok ((first :: more).map fun ds => (ds.map BitVec.toNat).sum)

/-- R112: a fresh coalescer on its own, given any HOLDs and one FINISH and drained by the host,
delivers exactly the words of the pure fold, the final one marked; or, where the fold overflows, it has
delivered the words before the faulting request and is faulted with E_OVERFLOW. The record of the words
delivered is the model's (log 15). -/
def Obligations.CoalescerRefinesFold : Prop :=
  ∀ (s : State) (rs : List Hold), FreshAlone s (rs.map holdWord ++ [0x40000000]) →
    match coalesce rs with
    | .ok ws => ∃ n ≤ 2 * (rs.length + 1), ∃ t, runN n s = .next t ∧ t.fault = false ∧
        t.hreqs = [] ∧ t.results = s.results ++ [.complete (markLast ws) s.err]
    | .error ws => ∃ n ≤ 2 * (rs.length + 1), ∃ t, runN n s = .next t ∧ t.fault = true ∧
        t.err = .overflow ∧ t.results = s.results ∧
        emittedWords t = ws.map fun d => ⟨BitVec.ofNat 16 d, false⟩

/-- R25: after any fault-free list of HOLDs the accumulator holds the sum of the nonzero HOLDs of the
current level since the level last changed. -/
def Obligations.AccumulatorHoldsPendingRun : Prop :=
  ∀ (s : State) (rs : List Hold) (ws : List Nat), FreshAlone s (rs.map holdWord) →
    coalesce rs = .ok ws →
    ∃ n ≤ 2 * rs.length, ∃ t, runN n s = .next t ∧ t.fault = false ∧ t.hreqs = [] ∧
      t.co.level = (pendingRun rs).1 ∧ t.co.acc.toNat = (pendingRun rs).2

/-! ### Commands (43_transmissions.md, 60_exceptions.md) -/

/-- ENCODE_POWER_ON starts a run whose frames both carry the packed bytes. That the host's record
`received` starts anew is the model's (log 15). -/
def Obligations.PowerOnStartsRun : Prop :=
  ∀ (s : State) (m : Mode) (sp : Speed) (t : Byte), s.initialised = true → cmdReady s = true →
    17 ≤ t.toNat → t.toNat ≤ 30 →
    ∃ p : Payload, p.a = 0xB2#8 ∧
      p.b = ((Config.speedCode sp).setWidth 8 <<< 5) ||| Config.bMarker.setWidth 8 ∧
      p.c = ((((t - 17#8).setWidth 4 >>> 1) ^^^ (t - 17#8).setWidth 4).setWidth 8 <<< 4) |||
        (Config.modeCode m).setWidth 8 ∧
      exec (.encodePowerOn m sp t) s =
        .next { s with
          sq := ⟨true, .payloadComputed, 0⟩
          pkx := p
          pky := p
          co := ⟨.high, 0, false⟩
          err := .none
          received := [] }

/-- ENCODE_POWER_OFF starts a run over the constant table, whatever the checked fields hold. That the
host's record `received` starts anew is the model's (log 15). -/
def Obligations.PowerOffStartsRun : Prop :=
  ∀ (s : State) (m : Mode) (sp : Speed) (t : Byte), s.initialised = true → cmdReady s = true →
    17 ≤ t.toNat → t.toNat ≤ 30 →
    exec (.encodePowerOff m sp t) s =
      .next { s with
        sq := ⟨false, .payloadComputed, 0⟩
        pkx := ⟨0xB2, 0x7B, 0xE0⟩
        pky := ⟨0xB2, 0x00, 0x00⟩
        co := ⟨.high, 0, false⟩
        err := .none
        received := [] }

/-- A rejected command writes its code and the phase, and the block is ready for the next command. -/
def Obligations.RejectionRecordsItsCode : Prop :=
  ∀ s : State, s.initialised = true → cmdReady s = true →
    (∀ p m sp z t, exec (.rejectReserved p m sp z t) s =
      .next { s with err := .reserved, sq := { s.sq with phase := .idle } }) ∧
    (∀ p m sp t, exec (.rejectBadMode p m sp t) s =
      .next { s with err := .badMode, sq := { s.sq with phase := .idle } }) ∧
    (∀ p m sp t, exec (.rejectTempRange p m sp t) s =
      .next { s with err := .tempRange, sq := { s.sq with phase := .idle } }) ∧
    ∀ c, cmdReady { s with err := c, sq := { s.sq with phase := .idle } } = true

/-- A command waits while `cmd_ready` = 0: the word has no effect, and the step of an integrated block
whose last word is not popped neither takes nor loses the words on the port. -/
def Obligations.CommandWaitsUntilReady : Prop :=
  (∀ (s : State) (w : CmdWord), s.initialised = true → cmdReady s = false →
    exec (decodeCmd w) s = .next s) ∧
  ∀ s : State, DeviceMoves s → s.alone = false → s.issuing = [] → running s.sq.phase = false →
    cmdReady s = false → step s = .next s

/-- R184, R212: the step that takes a command word checks it in order, and writes the registers of the
pseudocode, or `err_code` and the phase alone. -/
def Obligations.TakenCommandIsCheckedInOrder : Prop :=
  ∀ (s : State) (w : CmdWord), TakesCommand s w → ∃ t, step s = .next t ∧
    t.fault = false ∧ t.out = s.out ∧
    (∀ code : ErrCode,
      (w.extractLsb' 8 2 ≠ 0#2 ∧ code = .reserved ∨
        w.extractLsb' 8 2 = 0#2 ∧ 5 ≤ (w.extractLsb' 12 3).toNat ∧ code = .badMode ∨
        w.extractLsb' 8 2 = 0#2 ∧ (w.extractLsb' 12 3).toNat < 5 ∧
          ¬(17 ≤ (w.extractLsb' 0 8).toNat ∧ (w.extractLsb' 0 8).toNat ≤ 30) ∧
          code = .tempRange) →
      t.err = code ∧ t.sq = { s.sq with phase := .idle } ∧ t.co = s.co ∧ t.pkx = s.pkx ∧
        t.pky = s.pky ∧ cmdReady t = true) ∧
    (w.extractLsb' 8 2 = 0#2 → (w.extractLsb' 12 3).toNat < 5 →
      17 ≤ (w.extractLsb' 0 8).toNat → (w.extractLsb' 0 8).toNat ≤ 30 →
      t.sq = ⟨w.getLsbD 15, .payloadComputed, 0⟩ ∧ t.co = ⟨.high, 0, false⟩ ∧ t.err = .none ∧
      (w.getLsbD 15 = true → ∀ m sp,
        w.extractLsb' 12 3 = (match m with
          | .auto => 0#3 | .cool => 1#3 | .dry => 2#3 | .fan => 3#3 | .warm => 4#3) →
        w.extractLsb' 10 2 = (match sp with
          | .auto => 0#2 | .low => 1#2 | .middle => 2#2 | .high => 3#2) →
        t.pkx = packBytes m sp (w.extractLsb' 0 8) ∧ t.pky = t.pkx) ∧
      (w.getLsbD 15 = false → t.pkx = ⟨romOff[0], romOff[1], romOff[2]⟩ ∧
        t.pky = ⟨romOff[3], romOff[4], romOff[5]⟩))

/-- R64: during a run of the integrated block the command port has no influence on the step. -/
def Obligations.RunIgnoresCommandPort : Prop :=
  ∀ (s : State) (ws : List CmdWord), s.alone = false → running s.sq.phase = true →
    s.rst = false → s.script = [] →
    step { s with cmdOffers := ws } =
      match step s with
      | .next t => .next { t with cmdOffers := ws }
      | .fault f => .fault f
      | .refused r => .refused r

/-- The word taken is one of the words offered since `cmd_valid` rose (the model's form of R244, log 7),
and taking it changes only the command port and the model's counter. -/
def Obligations.TakenWordWasOffered : Prop :=
  ∀ s : State, DeviceMoves s → s.alone = false → s.issuing = [] → cmdReady s = true →
    s.cmdOffers ≠ [] →
    ∃ w ∈ s.cmdOffers, ∃ n, step s = exec (decodeCmd w) { s with cmdOffers := [], freeCount := n }

/-! ### Composites run by themselves (41_protocol_elements.md; the field `issuing` is the model's,
log 10) -/

/-- LEAD_IN, BIT_ONE, BIT_ZERO and STOP issue their two HOLDs. -/
def Obligations.ElementsIssueTheirHolds : Prop :=
  ∀ s : State, s.initialised = true → s.fault = false →
    exec .leadIn s =
      .next { s with issuing := s.issuing ++ [⟨.high, 4400⟩, ⟨.low, 4400⟩] } ∧
    exec .bitOne s = .next { s with issuing := s.issuing ++ [⟨.high, 540⟩, ⟨.low, 1620⟩] } ∧
    exec .bitZero s = .next { s with issuing := s.issuing ++ [⟨.high, 540⟩, ⟨.low, 540⟩] } ∧
    exec .stop s = .next { s with issuing := s.issuing ++ [⟨.high, 540⟩, ⟨.low, 5220⟩] }

/-- ENCODE_BYTE, ENCODE_PAIR and ENCODE_FRAME issue the HOLDs of their bits, MSB first, each byte
followed by its complement, framed by the lead-in and, if asked for, the stop. -/
def Obligations.BytesPairsFramesIssueTheirHolds : Prop :=
  ∀ (s : State) (a b c : Byte), s.initialised = true → s.fault = false →
    ∃ bits : Byte → List Hold,
      (∀ x, bits x = [7, 6, 5, 4, 3, 2, 1, 0].flatMap fun i =>
        [⟨.high, 540⟩, ⟨.low, if x.getLsbD i then 1620 else 540⟩]) ∧
      exec (.encodeByte a) s = .next { s with issuing := s.issuing ++ bits a } ∧
      exec (.encodePair a) s =
        .next { s with issuing := s.issuing ++ (bits a ++ bits (a ^^^ 0xFF)) } ∧
      ∀ withStop : Bool, exec (.encodeFrame a b c withStop) s =
        .next { s with issuing := s.issuing ++
          ([⟨.high, 4400⟩, ⟨.low, 4400⟩] ++ (bits a ++ bits (a ^^^ 0xFF)) ++
            (bits b ++ bits (b ^^^ 0xFF)) ++ (bits c ++ bits (c ^^^ 0xFF)) ++
            (if withStop then [⟨.high, 540⟩, ⟨.low, 5220⟩] else [])) }

/-- The step performs the next HOLD of a composite as soon as the coalescer can: when no fault is raised
and the output register is empty or the HOLD would not emit (R108). -/
def Obligations.IssuedHoldIsPerformed : Prop :=
  (∀ (s : State) (lv : Level) (d : Dur), requestReady (.hold lv d) s = true ↔
    s.fault = false ∧ (s.out.valid = false ∨
      ¬(d ≠ 0#16 ∧ s.co.closed = false ∧ lv ≠ s.co.level))) ∧
  ∀ (s : State) (h : Hold) (hs : List Hold), DeviceMoves s → s.issuing = h :: hs →
    (requestReady (.hold h.level h.dur) s = true →
      step s = exec (.hold h.level h.dur) { s with issuing := hs }) ∧
    (requestReady (.hold h.level h.dur) s = false → step s = .next s)

/-- A whole frame run by itself on a fresh, drained coalescer: every HOLD but the last is delivered as
a word of its own, and the last one is pending. -/
def Obligations.FrameRunsThroughCoalescer : Prop :=
  ∀ (s : State) (a b c : Byte) (withStop : Bool), FreshAlone s [] →
    ∃ n t, runN n { s with script := [.perform (.encodeFrame a b c withStop)] } = .next t ∧
      t.issuing = [] ∧ t.fault = false ∧ t.out.valid = false ∧
      t.received =
        (holdsFrame ⟨a, b, c⟩ withStop).dropLast.map (fun h => ⟨h.dur, false⟩) ∧
      t.co = ⟨.low, if withStop then 5220 else if c.getLsbD 0 then 540 else 1620, false⟩

/-! ### Combinational operations run by themselves (42_payload.md; `opResult` is the model's, log 11) -/

/-- VALIDATE, GREY and PACK write no register; they leave their result. Outside 17..30 the third byte
of PACK is not stated (log 12). -/
def Obligations.CombinationalOperationsLeaveTheirResult : Prop :=
  ∀ s : State, s.initialised = true → s.fault = false →
    (∀ t : Byte, exec (.validate t) s = .next { s with
      opResult := .verdict (if 17 ≤ t.toNat ∧ t.toNat ≤ 30 then .none else .tempRange) }) ∧
    (∀ x : BitVec 4, exec (.grey x) s = .next { s with opResult := .code ((x >>> 1) ^^^ x) }) ∧
    (∀ (m : Mode) (sp : Speed) (t : Byte), ∃ c : Byte,
      exec (.pack m sp t) s = .next { s with opResult := .bytes <|
        ⟨0xB2, ((Config.speedCode sp).setWidth 8 <<< 5) ||| Config.bMarker.setWidth 8, c⟩ } ∧
      (17 ≤ t.toNat → t.toNat ≤ 30 →
        c = ((((t - 17#8).setWidth 4 >>> 1) ^^^ (t - 17#8).setWidth 4).setWidth 8 <<< 4) |||
          (Config.modeCode m).setWidth 8))

/-! ### The host's actions, status and reset -/

/-- POP hands the waiting word to the host and empties the register, in any phase and also while
`fault` = 1; without a word it has no effect. The host's record and the emptied register's content are
the model's (log 3, log 15). -/
def Obligations.PopHandsTheWordOver : Prop :=
  ∀ s : State, s.initialised = true →
    (s.out.valid = false → exec .pop s = .next s) ∧
    (s.out.valid = true → ∃ t, exec .pop s = .next t ∧ t.out.valid = false ∧
      t = { s with out := t.out, received := t.received, results := t.results,
                   freeCount := t.freeCount } ∧
      (s.out.last = false → t.received = s.received ++ [⟨s.out.data, false⟩] ∧
        t.results = s.results) ∧
      (s.out.last = true → t.received = [] ∧
        t.results = s.results ++ [.complete (s.received ++ [⟨s.out.data, true⟩]) s.err])) ∧
    (s.rst = false → s.script = [] → s.out.valid = true → s.outReady = true →
      step s = exec .pop s)

/-- R240: reset loads the reset values in every state, also while `fault` = 1 and before any other
step; a waiting word is discarded. The unspecified registers are left open. That the step releases `rst`
is the model's (log 5). -/
def Obligations.ResetLoadsResetValues : Prop :=
  ∀ s : State, ∃ t, exec .reset s = .next t ∧
    t.co = ⟨.high, 0, false⟩ ∧ t.sq.phase = .idle ∧ t.sq.idx = 0 ∧ t.err = .none ∧
    t.fault = false ∧ t.out.valid = false ∧
    (s.rst = true → ∃ u, step s = .next u ∧
      u.co = ⟨.high, 0, false⟩ ∧ u.sq.phase = .idle ∧ u.sq.idx = 0 ∧ u.err = .none ∧
      u.fault = false ∧ u.out.valid = false ∧ u.rst = false)

/-- What RESET does to the rest of the model's state: the host's lines and plans stay, nothing is left to
be issued, and the words of a run cut short are discarded (log 5, log 10, log 15). A run is cut exactly
when the block has been reset before and requests are being issued, a word waits (be it the last one),
words were popped without the last one, or an open coalescer holds a duration (R247, log 15). -/
def Obligations.ResetKeepsTheHostsLines : Prop :=
  ∀ s : State, ∃ t, exec .reset s = .next t ∧ t.initialised = true ∧ t.received = [] ∧
    t.issuing = [] ∧ (t.results = s.results ∨ t.results = s.results ++ [.cut]) ∧
    t = { s with co := t.co, pkx := t.pkx, pky := t.pky, sq := t.sq, err := t.err,
                 fault := t.fault, out := t.out, received := t.received, results := t.results,
                 initialised := true, issuing := [], freeCount := t.freeCount } ∧
    (s.initialised = true →
      (running s.sq.phase = true ∨ s.out.valid = true ∨ s.received ≠ [] ∨
        (s.co.closed = false ∧ s.co.acc ≠ 0#16)) → t.results = s.results ++ [.cut]) ∧
    (s.initialised = true → running s.sq.phase = false → s.out.valid = false → s.received = [] →
      (s.co.closed = true ∨ s.co.acc = 0#16) → t.results = s.results) ∧
    (s.initialised = false → t.results = s.results)

/-- R241: after reset the block is idle and ready, with no error, and its first action is to take the
command the host offers. -/
def Obligations.AfterResetTheBlockIsReady : Prop :=
  (outputs State.reset).cmdReady = true ∧ (outputs State.reset).busy = false ∧
  (outputs State.reset).done = false ∧ (outputs State.reset).fault = false ∧
  (outputs State.reset).errCode = 0 ∧ (outputs State.reset).outValid = false ∧
  (outputs State.reset).phase = 0 ∧ State.reset.co = ⟨.high, 0, false⟩ ∧
  step State.reset = .next State.reset ∧
  ∀ w : CmdWord, step { State.reset with cmdOffers := [w] } = exec (decodeCmd w) State.reset

/-- R34: the status outputs as functions of the registers, `phase` by the codes of R27 and `err_code` by
those of R30 and R210. -/
def Obligations.StatusOutputsAreAsListed : Prop :=
  ∀ s : State,
    ((outputs s).cmdReady = true ↔ s.fault = false ∧ s.out.valid = false ∧
      (s.sq.phase = .idle ∨ s.sq.phase = .finished)) ∧
    ((outputs s).busy = true ↔ s.fault = false ∧ (s.sq.phase = .payloadComputed ∨
      s.sq.phase = .frame1Emitted ∨ s.sq.phase = .frame2Emitted ∨ s.out.valid = true)) ∧
    ((outputs s).done = true ↔ s.fault = false ∧ s.sq.phase = .finished ∧ s.out.valid = false) ∧
    (outputs s).phase = (match s.sq.phase with
      | .idle => 0#3 | .payloadComputed => 1#3 | .frame1Emitted => 2#3
      | .frame2Emitted => 3#3 | .finished => 4#3) ∧
    (outputs s).errCode = (match s.err with
      | .none => 0#3 | .tempRange => 1#3 | .badMode => 2#3 | .reserved => 3#3
      | .overflow => 4#3 | .reuse => 5#3 | .illegalReq => 6#3) ∧
    (outputs s).fault = s.fault ∧ (outputs s).outValid = s.out.valid ∧
    (outputs s).outData = s.out.data ∧ (outputs s).outLast = s.out.last

/-- Before the first reset every operation but RESET is refused, and so is the block's own turn. -/
def Obligations.NothingBeforeFirstReset : Prop :=
  ∀ s : State, s.initialised = false →
    (∀ i : Instr, i ≠ .reset → exec i s = .refused .beforeFirstReset) ∧
    (s.rst = false → s.script = [] → step s = .refused .beforeFirstReset) ∧
    ∃ t, exec .reset s = .next t ∧ t.initialised = true

/-- R215: a faulted block performs no request, takes no command and issues nothing; only a pop and
reset remain. The stop `halted`, when nothing is left to happen, is the model's (log 14). -/
def Obligations.FaultedBlockIsStuck : Prop :=
  ∀ s : State, s.initialised = true → s.fault = true →
    (∀ i : Instr, i ≠ .reset → i ≠ .pop → exec i s = .next s) ∧
    (∀ t, exec .pop s = .next t → t.fault = true ∧ t.err = s.err ∧ t.co = s.co) ∧
    (s.rst = false → s.script = [] → (s.out.valid && s.outReady) = false →
      step s = .fault (.halted s.err))

/-- The host writes no block register but through a taken command and reset: each of its actions drives
its own line and changes nothing else (the form of the lines and of the plan is the model's, log 5, log 7).
On the integrated block a composite planned by itself has no effect (R4, log 10, log 11); a `yield` leaves
the step to the device. -/
def Obligations.HostActionsChangeLinesOnly : Prop :=
  ∀ (s : State) (as : List HostAct), s.rst = false →
    (s.script = [.yield] → step s = step { s with script := [] }) ∧
    (∀ w, s.script = .offerCmd w :: as →
      step s = .next { s with script := as, cmdOffers := s.cmdOffers ++ [w] }) ∧
    (s.script = .withdrawCmd :: as → step s = .next { s with script := as, cmdOffers := [] }) ∧
    (∀ b, s.script = .setReady b :: as → step s = .next { s with script := as, outReady := b }) ∧
    (s.script = .assertRst :: as → step s = .next { s with script := as, rst := true }) ∧
    (∀ w, s.script = .request w :: as →
      step s = .next { s with script := as, hreqs := s.hreqs ++ [w] }) ∧
    (s.script = .withdrawReq :: as → step s = .next { s with script := as, hreqs := [] }) ∧
    (∀ i, s.script = .perform i :: as → s.alone = false → step s = .next { s with script := as }) ∧
    (∀ i, s.script = .perform i :: as → s.alone = true → formatOf i = .composite →
      step s = exec i { s with script := as })

/-! ### The step -/

/-- The step runs the instruction that a command word decodes to, and the handshake is complete. -/
def Obligations.StepRunsTakenCommand : Prop :=
  ∀ (s : State) (w : CmdWord), TakesCommand s w →
    step s = exec (decodeCmd w) { s with cmdOffers := [] }

/-- R113: the step of a coalescer on its own runs the instruction that the word on the request port decodes
to, and takes the word, exactly when no fault is raised and the output register is empty or the word does
not emit; only a HOLD of nonzero duration and other level, and FINISH, emit, and only while the coalescer
is open. -/
def Obligations.StepRunsRequest : Prop :=
  (∀ (s : State) (w : HreqWord), hreqReady w s = true ↔
    s.fault = false ∧ (s.out.valid = false ∨
      ¬(w.extractLsb' 17 15 = 0#15 ∧ w.extractLsb' 0 16 ≠ 0#16 ∧ s.co.closed = false ∧
          (if w.getLsbD 16 then Level.high else Level.low) ≠ s.co.level ∨
        w = 0x40000000#32 ∧ s.co.closed = false))) ∧
  ∀ (s : State) (w : HreqWord) (ws : List HreqWord), DeviceMoves s → s.alone = true →
    s.issuing = [] → s.hreqs = w :: ws →
    (hreqReady w s = true → step s = exec (decodeHreq w) { s with hreqs := ws }) ∧
    (hreqReady w s = false → step s = .next s)

/-- R189, R190: the sequencer issues the request at its index, when the coalescer can perform it (R108);
the index advances by one, and the phase is the one that follows. -/
def Obligations.SequencerIssuesItsProgram : Prop :=
  (∀ (s : State) (lv : Level) (d : Dur), requestReady (.hold lv d) s = true ↔
    s.fault = false ∧ (s.out.valid = false ∨
      ¬(d ≠ 0#16 ∧ s.co.closed = false ∧ lv ≠ s.co.level))) ∧
  (∀ s : State, requestReady .finish s = true ↔
    s.fault = false ∧ (s.out.valid = false ∨ s.co.closed = true)) ∧
  ∀ (s : State) (i : Instr), DeviceMoves s → s.alone = false → s.issuing = [] →
    running s.sq.phase = true → prog s.pkx s.pky s.sq.idx.toNat = some i →
    (requestReady i s = false → step s = .next s) ∧
    (requestReady i s = true → ∃ u, exec i s = .next u ∧
      (u.fault = true → step s = .next u) ∧
      (u.fault = false → ∃ ph : Phase,
        step s = .next { u with sq := ⟨u.sq.power, ph, s.sq.idx + 1⟩ } ∧
        (s.sq.idx.toNat + 1 ≤ 99 → ph = .payloadComputed) ∧
        (100 ≤ s.sq.idx.toNat + 1 → s.sq.idx.toNat + 1 ≤ 197 → ph = .frame1Emitted) ∧
        (s.sq.idx.toNat + 1 = 198 → ph = .frame2Emitted) ∧
        (s.sq.idx.toNat + 1 = 199 → ph = .finished)))

/-! ### Invariants and whole runs -/

/-- The reset state meets the three invariants below. -/
def Obligations.ResetMeetsTheInvariants : Prop :=
  IntegratedInv State.reset ∧ PhaseIndexInv State.reset ∧ LevelInv State.reset

/-- Every step of the integrated block keeps its invariant: no fault, the phase of the index, the
payload of an accepted command, the words emitted so far exactly those of the hold program, and every
ended run the words of an accepted command. -/
def Obligations.StepKeepsIntegratedInv : Prop :=
  ∀ s t : State, IntegratedInv s → step s = .next t → IntegratedInv t

/-- R35: every step keeps the relation of phase and index. -/
def Obligations.StepKeepsPhaseIndexInv : Prop :=
  ∀ s t : State, PhaseIndexInv s → step s = .next t → PhaseIndexInv t

/-- R56, R111: on either device every step keeps the level of the coalescer equal to that of the next
word's position, so that the words of a run alternate from High. -/
def Obligations.StepKeepsLevelInv : Prop :=
  ∀ s t : State, LevelInv s → step s = .next t → LevelInv t

/-- R192: in a run of the integrated block the accumulator never exceeds 5220. -/
def Obligations.AccumulatorStaysBelow5221 : Prop :=
  ∀ s : State, RunInv s → running s.sq.phase = true → s.co.acc.toNat ≤ 5220

/-- R191: a run has 198 words; word `k` is the duration of `prog[k]`, and only word 197 is final. -/
def Obligations.RunWordsAreProgramDurations : Prop :=
  ∀ x y : Payload, (runWords x y).length = 198 ∧
    ∀ k < 198, ∃ lv d, prog x y k = some (.hold lv d) ∧
      (runWords x y)[k]? = some ⟨d, decide (k = 197)⟩

/-- R195: the totals of a run, for every accepted command. -/
def Obligations.RunTotals : Prop :=
  ∀ c : ValidCommand, inRange c = true →
    (commandWords c).length = 198 ∧
    ((commandWords c).map fun o => o.data.toNat).sum = 178880 ∧
    ((commandWords c)[0]?).map OutWord.data = some 4400 ∧
    ((commandWords c)[1]?).map OutWord.data = some 4400 ∧
    ((commandWords c)[98]?).map OutWord.data = some 540 ∧
    ((commandWords c)[99]?).map OutWord.data = some 5220 ∧
    ((commandWords c)[100]?).map OutWord.data = some 4400 ∧
    ((commandWords c)[101]?).map OutWord.data = some 4400 ∧
    ((commandWords c)[197]?).map OutWord.data =
      some (if (secondPayload c).c.getLsbD 0 then 540 else 1620) ∧
    (c = .off → (secondPayload c).c.getLsbD 0 = false) ∧
    (∀ m sp t, c = .on m sp t → (secondPayload c).c.getLsbD 0 = (Config.modeCode m).getLsbD 0) ∧
    ∀ o ∈ commandWords c, o.data ≠ 1320#16

/-- R191, R198: every accepted command, on any integrated block that can take it and is drained by the
host, ends after its acceptance, 199 sequencer steps and 198 pops with `done` = 1 and exactly its words
delivered. The record of the words delivered is the model's (log 15). -/
def Obligations.AcceptedCommandDeliversItsWords : Prop :=
  ∀ (s : State) (w : CmdWord) (c : ValidCommand), TakesCommand s w → s.outReady = true →
    (match c with
      | .on m sp t => decodeCmd w = .encodePowerOn m sp t
      | .off => ∃ m sp t, decodeCmd w = .encodePowerOff m sp t) →
    ∃ t, runN (1 + 199 + 198) s = .next t ∧ (outputs t).done = true ∧ t.sq.idx = 199 ∧
      t.err = .none ∧ t.results = s.results ++ [.complete (commandWords c) .none]
end

