-- ==== Sys2Proof/Laws/Decode.lean ====
section
/-! SUPPORT. The fields of a word built from fields (R70, R77), and the port codes (R72, R73). -/

namespace Sys2Proof

section
variable (p : Bool) (m : BitVec 3) (s z : BitVec 2) (t : Byte)

@[simp] theorem cmdP_cmdWordOf : cmdP (cmdWordOf p m s z t) = p := by
  unfold cmdP cmdWordOf
  simp only [BitVec.getLsbD_append]
  simp

@[simp] theorem cmdM_cmdWordOf : cmdM (cmdWordOf p m s z t) = m := by
  unfold cmdM cmdWordOf
  ext i hi
  simp only [BitVec.getElem_extractLsb', BitVec.getLsbD_append]
  simp [hi, show ¬(12 + i < 8) by omega, show ¬(12 + i - 8 < 2) by omega, show ¬(12 + i - 8 - 2 < 2) by omega,
    show 12 + i - 8 - 2 - 2 = i by omega]

@[simp] theorem cmdS_cmdWordOf : cmdS (cmdWordOf p m s z t) = s := by
  unfold cmdS cmdWordOf
  ext i hi
  simp only [BitVec.getElem_extractLsb', BitVec.getLsbD_append]
  simp [hi, show ¬(10 + i < 8) by omega, show ¬(10 + i - 8 < 2) by omega,
    show 10 + i - 8 - 2 = i by omega]

@[simp] theorem cmdZ_cmdWordOf : cmdZ (cmdWordOf p m s z t) = z := by
  unfold cmdZ cmdWordOf
  ext i hi
  simp only [BitVec.getElem_extractLsb', BitVec.getLsbD_append]
  simp [hi, show ¬(8 + i < 8) by omega]

@[simp] theorem cmdT_cmdWordOf : cmdT (cmdWordOf p m s z t) = t := by
  unfold cmdT cmdWordOf
  ext i hi
  simp only [BitVec.getElem_extractLsb', BitVec.getLsbD_append]
  simp [hi]

end

section
variable (op : BitVec 2) (r : BitVec 13) (lv : Bool) (d : Dur)

@[simp] theorem hreqOp_hreqWordOf : hreqOp (hreqWordOf op r lv d) = op := by
  unfold hreqOp hreqWordOf
  ext i hi
  simp only [BitVec.getElem_extractLsb', BitVec.getLsbD_append]
  simp [hi, show ¬(30 + i < 16) by omega, show ¬(30 + i - 16 < 1) by omega,
    show ¬(30 + i - 16 - 1 < 13) by omega, show 30 + i - 16 - 1 - 13 = i by omega]

@[simp] theorem hreqR_hreqWordOf : hreqR (hreqWordOf op r lv d) = r := by
  unfold hreqR hreqWordOf
  ext i hi
  simp only [BitVec.getElem_extractLsb', BitVec.getLsbD_append]
  simp [hi, show ¬(17 + i < 16) by omega, show ¬(17 + i - 16 < 1) by omega,
    show 17 + i - 16 - 1 = i by omega]

@[simp] theorem hreqLv_hreqWordOf : hreqLv (hreqWordOf op r lv d) = lv := by
  unfold hreqLv hreqWordOf
  simp only [BitVec.getLsbD_append]
  simp

@[simp] theorem hreqD_hreqWordOf : hreqD (hreqWordOf op r lv d) = d := by
  unfold hreqD hreqWordOf
  ext i hi
  simp only [BitVec.getElem_extractLsb', BitVec.getLsbD_append]
  simp [hi]

end

@[simp] theorem modeOfPort_modePort (m : Mode) : modeOfPort (modePort m) = some m := by
  cases m <;> rfl

@[simp] theorem speedOfPort_speedPort (s : Speed) : speedOfPort (speedPort s) = s := by
  cases s <;> rfl

@[simp] theorem levelOfBit_levelBit (l : Level) : levelOfBit (levelBit l) = l := by
  cases l <;> rfl

/-- The codes that name no mode are 5, 6 and 7 (R72). -/
theorem modeOfPort_eq_none (c : BitVec 3) : modeOfPort c = none ↔ 5 ≤ c.toNat := by
  revert c; decide

end Sys2Proof
end

