-- ==== Sys2Proof/Laws/State.lean ====
section
/-! SUPPORT. What each named update of State does to each field: one lemma per field per update. -/

namespace Sys2Proof.Machine

/-! ### setCo -/

section
variable (c : Coalescer) (s : State)

@[simp] theorem setCo_co : (setCo c s).co = c := rfl
@[simp] theorem setCo_pkx : (setCo c s).pkx = s.pkx := rfl
@[simp] theorem setCo_pky : (setCo c s).pky = s.pky := rfl
@[simp] theorem setCo_sq : (setCo c s).sq = s.sq := rfl
@[simp] theorem setCo_err : (setCo c s).err = s.err := rfl
@[simp] theorem setCo_fault : (setCo c s).fault = s.fault := rfl
@[simp] theorem setCo_out : (setCo c s).out = s.out := rfl
@[simp] theorem setCo_rst : (setCo c s).rst = s.rst := rfl
@[simp] theorem setCo_cmdOffers : (setCo c s).cmdOffers = s.cmdOffers := rfl
@[simp] theorem setCo_outReady : (setCo c s).outReady = s.outReady := rfl
@[simp] theorem setCo_hreqs : (setCo c s).hreqs = s.hreqs := rfl
@[simp] theorem setCo_script : (setCo c s).script = s.script := rfl
@[simp] theorem setCo_received : (setCo c s).received = s.received := rfl
@[simp] theorem setCo_results : (setCo c s).results = s.results := rfl
@[simp] theorem setCo_alone : (setCo c s).alone = s.alone := rfl
@[simp] theorem setCo_initialised : (setCo c s).initialised = s.initialised := rfl
@[simp] theorem setCo_issuing : (setCo c s).issuing = s.issuing := rfl
@[simp] theorem setCo_opResult : (setCo c s).opResult = s.opResult := rfl
@[simp] theorem setCo_freeCount : (setCo c s).freeCount = s.freeCount := rfl

end

/-! ### setResult -/

section
variable (r : OpResult) (s : State)

@[simp] theorem setResult_co : (setResult r s).co = s.co := rfl
@[simp] theorem setResult_pkx : (setResult r s).pkx = s.pkx := rfl
@[simp] theorem setResult_pky : (setResult r s).pky = s.pky := rfl
@[simp] theorem setResult_sq : (setResult r s).sq = s.sq := rfl
@[simp] theorem setResult_err : (setResult r s).err = s.err := rfl
@[simp] theorem setResult_fault : (setResult r s).fault = s.fault := rfl
@[simp] theorem setResult_out : (setResult r s).out = s.out := rfl
@[simp] theorem setResult_rst : (setResult r s).rst = s.rst := rfl
@[simp] theorem setResult_cmdOffers : (setResult r s).cmdOffers = s.cmdOffers := rfl
@[simp] theorem setResult_outReady : (setResult r s).outReady = s.outReady := rfl
@[simp] theorem setResult_hreqs : (setResult r s).hreqs = s.hreqs := rfl
@[simp] theorem setResult_script : (setResult r s).script = s.script := rfl
@[simp] theorem setResult_received : (setResult r s).received = s.received := rfl
@[simp] theorem setResult_results : (setResult r s).results = s.results := rfl
@[simp] theorem setResult_alone : (setResult r s).alone = s.alone := rfl
@[simp] theorem setResult_initialised : (setResult r s).initialised = s.initialised := rfl
@[simp] theorem setResult_issuing : (setResult r s).issuing = s.issuing := rfl
@[simp] theorem setResult_opResult : (setResult r s).opResult = r := rfl
@[simp] theorem setResult_freeCount : (setResult r s).freeCount = s.freeCount := rfl

end

/-! ### emit -/

section
variable (v : Dur) (l : Bool) (s : State)

@[simp] theorem emit_co : (emit v l s).co = s.co := rfl
@[simp] theorem emit_pkx : (emit v l s).pkx = s.pkx := rfl
@[simp] theorem emit_pky : (emit v l s).pky = s.pky := rfl
@[simp] theorem emit_sq : (emit v l s).sq = s.sq := rfl
@[simp] theorem emit_err : (emit v l s).err = s.err := rfl
@[simp] theorem emit_fault : (emit v l s).fault = s.fault := rfl
@[simp] theorem emit_out : (emit v l s).out = ⟨true, v, l⟩ := rfl
@[simp] theorem emit_rst : (emit v l s).rst = s.rst := rfl
@[simp] theorem emit_cmdOffers : (emit v l s).cmdOffers = s.cmdOffers := rfl
@[simp] theorem emit_outReady : (emit v l s).outReady = s.outReady := rfl
@[simp] theorem emit_hreqs : (emit v l s).hreqs = s.hreqs := rfl
@[simp] theorem emit_script : (emit v l s).script = s.script := rfl
@[simp] theorem emit_received : (emit v l s).received = s.received := rfl
@[simp] theorem emit_results : (emit v l s).results = s.results := rfl
@[simp] theorem emit_alone : (emit v l s).alone = s.alone := rfl
@[simp] theorem emit_initialised : (emit v l s).initialised = s.initialised := rfl
@[simp] theorem emit_issuing : (emit v l s).issuing = s.issuing := rfl
@[simp] theorem emit_opResult : (emit v l s).opResult = s.opResult := rfl
@[simp] theorem emit_freeCount : (emit v l s).freeCount = s.freeCount := rfl

end

/-! ### raiseFault -/

section
variable (c : ErrCode) (s : State)

@[simp] theorem raiseFault_co : (raiseFault c s).co = s.co := rfl
@[simp] theorem raiseFault_pkx : (raiseFault c s).pkx = s.pkx := rfl
@[simp] theorem raiseFault_pky : (raiseFault c s).pky = s.pky := rfl
@[simp] theorem raiseFault_sq : (raiseFault c s).sq = s.sq := rfl
@[simp] theorem raiseFault_err : (raiseFault c s).err = c := rfl
@[simp] theorem raiseFault_fault : (raiseFault c s).fault = true := rfl
@[simp] theorem raiseFault_out : (raiseFault c s).out = s.out := rfl
@[simp] theorem raiseFault_rst : (raiseFault c s).rst = s.rst := rfl
@[simp] theorem raiseFault_cmdOffers : (raiseFault c s).cmdOffers = s.cmdOffers := rfl
@[simp] theorem raiseFault_outReady : (raiseFault c s).outReady = s.outReady := rfl
@[simp] theorem raiseFault_hreqs : (raiseFault c s).hreqs = s.hreqs := rfl
@[simp] theorem raiseFault_script : (raiseFault c s).script = s.script := rfl
@[simp] theorem raiseFault_received : (raiseFault c s).received = s.received := rfl
@[simp] theorem raiseFault_results : (raiseFault c s).results = s.results := rfl
@[simp] theorem raiseFault_alone : (raiseFault c s).alone = s.alone := rfl
@[simp] theorem raiseFault_initialised : (raiseFault c s).initialised = s.initialised := rfl
@[simp] theorem raiseFault_issuing : (raiseFault c s).issuing = s.issuing := rfl
@[simp] theorem raiseFault_opResult : (raiseFault c s).opResult = s.opResult := rfl
@[simp] theorem raiseFault_freeCount : (raiseFault c s).freeCount = s.freeCount := rfl

end

/-! ### reject -/

section
variable (c : ErrCode) (s : State)

@[simp] theorem reject_co : (reject c s).co = s.co := rfl
@[simp] theorem reject_pkx : (reject c s).pkx = s.pkx := rfl
@[simp] theorem reject_pky : (reject c s).pky = s.pky := rfl
@[simp] theorem reject_sq : (reject c s).sq = { s.sq with phase := .idle } := rfl
@[simp] theorem reject_err : (reject c s).err = c := rfl
@[simp] theorem reject_fault : (reject c s).fault = s.fault := rfl
@[simp] theorem reject_out : (reject c s).out = s.out := rfl
@[simp] theorem reject_rst : (reject c s).rst = s.rst := rfl
@[simp] theorem reject_cmdOffers : (reject c s).cmdOffers = s.cmdOffers := rfl
@[simp] theorem reject_outReady : (reject c s).outReady = s.outReady := rfl
@[simp] theorem reject_hreqs : (reject c s).hreqs = s.hreqs := rfl
@[simp] theorem reject_script : (reject c s).script = s.script := rfl
@[simp] theorem reject_received : (reject c s).received = s.received := rfl
@[simp] theorem reject_results : (reject c s).results = s.results := rfl
@[simp] theorem reject_alone : (reject c s).alone = s.alone := rfl
@[simp] theorem reject_initialised : (reject c s).initialised = s.initialised := rfl
@[simp] theorem reject_issuing : (reject c s).issuing = s.issuing := rfl
@[simp] theorem reject_opResult : (reject c s).opResult = s.opResult := rfl
@[simp] theorem reject_freeCount : (reject c s).freeCount = s.freeCount := rfl

end

/-! ### startRun -/

section
variable (p : Bool) (x y : Payload) (s : State)

@[simp] theorem startRun_co : (startRun p x y s).co = freshCoalescer := rfl
@[simp] theorem startRun_pkx : (startRun p x y s).pkx = x := rfl
@[simp] theorem startRun_pky : (startRun p x y s).pky = y := rfl
@[simp] theorem startRun_sq : (startRun p x y s).sq = ⟨p, .payloadComputed, 0⟩ := rfl
@[simp] theorem startRun_err : (startRun p x y s).err = .none := rfl
@[simp] theorem startRun_fault : (startRun p x y s).fault = s.fault := rfl
@[simp] theorem startRun_out : (startRun p x y s).out = s.out := rfl
@[simp] theorem startRun_rst : (startRun p x y s).rst = s.rst := rfl
@[simp] theorem startRun_cmdOffers : (startRun p x y s).cmdOffers = s.cmdOffers := rfl
@[simp] theorem startRun_outReady : (startRun p x y s).outReady = s.outReady := rfl
@[simp] theorem startRun_hreqs : (startRun p x y s).hreqs = s.hreqs := rfl
@[simp] theorem startRun_script : (startRun p x y s).script = s.script := rfl
@[simp] theorem startRun_received : (startRun p x y s).received = [] := rfl
@[simp] theorem startRun_results : (startRun p x y s).results = s.results := rfl
@[simp] theorem startRun_alone : (startRun p x y s).alone = s.alone := rfl
@[simp] theorem startRun_initialised : (startRun p x y s).initialised = s.initialised := rfl
@[simp] theorem startRun_issuing : (startRun p x y s).issuing = s.issuing := rfl
@[simp] theorem startRun_opResult : (startRun p x y s).opResult = s.opResult := rfl
@[simp] theorem startRun_freeCount : (startRun p x y s).freeCount = s.freeCount := rfl

end

/-! ### advance -/

section
variable (s : State)

@[simp] theorem advance_co : (advance s).co = s.co := rfl
@[simp] theorem advance_pkx : (advance s).pkx = s.pkx := rfl
@[simp] theorem advance_pky : (advance s).pky = s.pky := rfl
@[simp] theorem advance_sq : (advance s).sq = { s.sq with idx := s.sq.idx + 1, phase := phaseAfter (s.sq.idx.toNat + 1) } := rfl
@[simp] theorem advance_err : (advance s).err = s.err := rfl
@[simp] theorem advance_fault : (advance s).fault = s.fault := rfl
@[simp] theorem advance_out : (advance s).out = s.out := rfl
@[simp] theorem advance_rst : (advance s).rst = s.rst := rfl
@[simp] theorem advance_cmdOffers : (advance s).cmdOffers = s.cmdOffers := rfl
@[simp] theorem advance_outReady : (advance s).outReady = s.outReady := rfl
@[simp] theorem advance_hreqs : (advance s).hreqs = s.hreqs := rfl
@[simp] theorem advance_script : (advance s).script = s.script := rfl
@[simp] theorem advance_received : (advance s).received = s.received := rfl
@[simp] theorem advance_results : (advance s).results = s.results := rfl
@[simp] theorem advance_alone : (advance s).alone = s.alone := rfl
@[simp] theorem advance_initialised : (advance s).initialised = s.initialised := rfl
@[simp] theorem advance_issuing : (advance s).issuing = s.issuing := rfl
@[simp] theorem advance_opResult : (advance s).opResult = s.opResult := rfl
@[simp] theorem advance_freeCount : (advance s).freeCount = s.freeCount := rfl

end

/-! ### handOver -/

section
variable (s : State)

@[simp] theorem handOver_co : (handOver s).co = s.co := rfl
@[simp] theorem handOver_pkx : (handOver s).pkx = s.pkx := rfl
@[simp] theorem handOver_pky : (handOver s).pky = s.pky := rfl
@[simp] theorem handOver_sq : (handOver s).sq = s.sq := rfl
@[simp] theorem handOver_err : (handOver s).err = s.err := rfl
@[simp] theorem handOver_fault : (handOver s).fault = s.fault := rfl
@[simp] theorem handOver_out : (handOver s).out = ⟨false, Config.freeDur s.freeCount, Config.freeBit s.freeCount⟩ := rfl
@[simp] theorem handOver_rst : (handOver s).rst = s.rst := rfl
@[simp] theorem handOver_cmdOffers : (handOver s).cmdOffers = s.cmdOffers := rfl
@[simp] theorem handOver_outReady : (handOver s).outReady = s.outReady := rfl
@[simp] theorem handOver_hreqs : (handOver s).hreqs = s.hreqs := rfl
@[simp] theorem handOver_script : (handOver s).script = s.script := rfl
@[simp] theorem handOver_received : (handOver s).received = if s.out.last then [] else s.received ++ [⟨s.out.data, s.out.last⟩] := rfl
@[simp] theorem handOver_results : (handOver s).results = if s.out.last then s.results ++ [.complete (s.received ++ [⟨s.out.data, s.out.last⟩]) s.err] else s.results := rfl
@[simp] theorem handOver_alone : (handOver s).alone = s.alone := rfl
@[simp] theorem handOver_initialised : (handOver s).initialised = s.initialised := rfl
@[simp] theorem handOver_issuing : (handOver s).issuing = s.issuing := rfl
@[simp] theorem handOver_opResult : (handOver s).opResult = s.opResult := rfl
@[simp] theorem handOver_freeCount : (handOver s).freeCount = s.freeCount + 1 := rfl

end

/-! ### loadReset -/

section
variable (s : State)

@[simp] theorem loadReset_co : (loadReset s).co = freshCoalescer := rfl
@[simp] theorem loadReset_pkx : (loadReset s).pkx = ⟨Config.freeByte s.freeCount, Config.freeByte (s.freeCount + 1), Config.freeByte (s.freeCount + 2)⟩ := rfl
@[simp] theorem loadReset_pky : (loadReset s).pky = ⟨Config.freeByte (s.freeCount + 3), Config.freeByte (s.freeCount + 4), Config.freeByte (s.freeCount + 5)⟩ := rfl
@[simp] theorem loadReset_sq : (loadReset s).sq = ⟨Config.freeBit s.freeCount, .idle, 0⟩ := rfl
@[simp] theorem loadReset_err : (loadReset s).err = .none := rfl
@[simp] theorem loadReset_fault : (loadReset s).fault = false := rfl
@[simp] theorem loadReset_out : (loadReset s).out = ⟨false, Config.freeDur s.freeCount, Config.freeBit (s.freeCount + 1)⟩ := rfl
@[simp] theorem loadReset_rst : (loadReset s).rst = s.rst := rfl
@[simp] theorem loadReset_cmdOffers : (loadReset s).cmdOffers = s.cmdOffers := rfl
@[simp] theorem loadReset_outReady : (loadReset s).outReady = s.outReady := rfl
@[simp] theorem loadReset_hreqs : (loadReset s).hreqs = s.hreqs := rfl
@[simp] theorem loadReset_script : (loadReset s).script = s.script := rfl
@[simp] theorem loadReset_received : (loadReset s).received = [] := rfl
@[simp] theorem loadReset_results : (loadReset s).results = if runOpen s then s.results ++ [.cut] else s.results := rfl
@[simp] theorem loadReset_alone : (loadReset s).alone = s.alone := rfl
@[simp] theorem loadReset_initialised : (loadReset s).initialised = true := rfl
@[simp] theorem loadReset_issuing : (loadReset s).issuing = [] := rfl
@[simp] theorem loadReset_opResult : (loadReset s).opResult = s.opResult := rfl
@[simp] theorem loadReset_freeCount : (loadReset s).freeCount = s.freeCount + 6 := rfl

end

end Sys2Proof.Machine
end

