-- ==== Sys2Proof/Laws/Ops.lean ====
section
/-! SUPPORT. For each shared operation, once, everything it can do. -/

namespace Sys2Proof.Machine

/-- Only an operation on a block that has been reset has a next state, the one it computes. -/
theorem whenReset_eq_next {s t u : State} :
    whenReset s t = .next u ↔ s.initialised = true ∧ t = u := by
  unfold whenReset
  cases s.initialised <;> simp

@[simp] theorem whenReset_of_initialised {s : State} (h : s.initialised = true) (t : State) :
    whenReset s t = .next t := by simp [whenReset, h]

@[simp] theorem whenReset_of_not {s : State} (h : s.initialised = false) (t : State) :
    whenReset s t = .refused .beforeFirstReset := by simp [whenReset, h]

/-- A command is taken with its effect, or waits. -/
theorem takeCommand_cases (f : State → State) (s : State) :
    (cmdReady s = true ∧ takeCommand f s = f s) ∨ (cmdReady s = false ∧ takeCommand f s = s) := by
  unfold takeCommand
  cases cmdReady s <;> simp

/-- Everything a HOLD can do: nothing (a faulted block, a zero duration, a wait), E_REUSE, E_OVERFLOW,
accumulate, or emit and start a new level (R100 to R103, R106, R108). -/
theorem coalescerHold_cases (lv : Level) (d : Dur) (s : State) :
    (s.fault = true ∧ coalescerHold lv d s = s) ∨
    (s.fault = false ∧ s.co.closed = true ∧ coalescerHold lv d s = raiseFault .reuse s) ∨
    (s.fault = false ∧ s.co.closed = false ∧ d = 0#16 ∧ coalescerHold lv d s = s) ∨
    (s.fault = false ∧ s.co.closed = false ∧ d ≠ 0#16 ∧ lv = s.co.level ∧
      s.co.acc.toNat + d.toNat > 0xFFFF ∧ coalescerHold lv d s = raiseFault .overflow s) ∨
    (s.fault = false ∧ s.co.closed = false ∧ d ≠ 0#16 ∧ lv = s.co.level ∧
      s.co.acc.toNat + d.toNat ≤ 0xFFFF ∧
      coalescerHold lv d s = setCo { s.co with acc := s.co.acc + d } s) ∨
    (s.fault = false ∧ s.co.closed = false ∧ d ≠ 0#16 ∧ lv ≠ s.co.level ∧ s.out.valid = true ∧
      coalescerHold lv d s = s) ∨
    (s.fault = false ∧ s.co.closed = false ∧ d ≠ 0#16 ∧ lv ≠ s.co.level ∧ s.out.valid = false ∧
      coalescerHold lv d s = setCo { s.co with level := lv, acc := d } (emit s.co.acc false s)) := by
  unfold coalescerHold
  by_cases hf : s.fault = true
  · simp [hf]
  · by_cases hc : s.co.closed = true
    · simp [hf, hc]
    · by_cases hd : d = 0#16
      · simp [hf, hc, hd]
      · by_cases hl : lv = s.co.level
        · by_cases ha : s.co.acc.toNat + d.toNat > 0xFFFF
          · simp [hf, hc, hd, hl, ha]
          · simp [hf, hc, hd, hl, ha, Nat.le_of_not_gt ha]
        · cases s.out.valid <;> simp [hf, hc, hd, hl]

/-- Everything a FINISH can do: nothing, E_REUSE, or emit the last word and close (R104 to R106). -/
theorem coalescerFinish_cases (s : State) :
    (s.fault = true ∧ coalescerFinish s = s) ∨
    (s.fault = false ∧ s.co.closed = true ∧ coalescerFinish s = raiseFault .reuse s) ∨
    (s.fault = false ∧ s.co.closed = false ∧ s.out.valid = true ∧ coalescerFinish s = s) ∨
    (s.fault = false ∧ s.co.closed = false ∧ s.out.valid = false ∧
      coalescerFinish s = setCo { s.co with closed := true } (emit s.co.acc true s)) := by
  unfold coalescerFinish
  cases s.fault <;> cases s.co.closed <;> cases s.out.valid <;> simp

/-- An illegal word does nothing in a faulted block, and raises E_ILLEGAL_REQ in any other (R107). -/
theorem coalescerIllegal_cases (s : State) :
    (s.fault = true ∧ coalescerIllegal s = s) ∨
    (s.fault = false ∧ coalescerIllegal s = raiseFault .illegalReq s) := by
  unfold coalescerIllegal
  cases s.fault <;> simp

/-- A composite issues its HOLDs after those still to be issued, unless the block is faulted (R215). -/
theorem issueHolds_cases (hs : List Hold) (s : State) :
    (s.fault = true ∧ issueHolds hs s = s) ∨
    (s.fault = false ∧ issueHolds hs s = { s with issuing := s.issuing ++ hs }) := by
  unfold issueHolds
  cases s.fault <;> simp

/-- A combinational operation leaves its result, unless the block is faulted. -/
theorem evaluate_cases (r : OpResult) (s : State) :
    (s.fault = true ∧ evaluate r s = s) ∨ (s.fault = false ∧ evaluate r s = setResult r s) := by
  unfold evaluate
  cases s.fault <;> simp

/-- A pop hands the waiting word over, or has no effect (R193). -/
theorem popWord_cases (s : State) :
    (s.out.valid = true ∧ popWord s = handOver s) ∨ (s.out.valid = false ∧ popWord s = s) := by
  unfold popWord
  cases s.out.valid <;> simp

/-- The sequencer advances, unless the request faulted (R214). -/
theorem advanceUnlessFault_cases (s : State) :
    (s.fault = true ∧ advanceUnlessFault s = s) ∨
    (s.fault = false ∧ advanceUnlessFault s = advance s) := by
  unfold advanceUnlessFault
  cases s.fault <;> simp

/-- A word taken from the command port is one of the words offered, and taking it changes the port and
the counter of free values alone (R181, R244). -/
theorem eq_withOffers_of_takenWord {s t : State} {w : CmdWord} (h : takenWord s = some (w, t)) :
    w ∈ s.cmdOffers ∧ ∃ n, t = { s with cmdOffers := [], freeCount := n } := by
  unfold takenWord at h
  split at h
  · cases h
  · rename_i v hv
    cases h
    exact ⟨by simp [hv], s.freeCount, rfl⟩
  · rename_i hne _
    cases h
    refine ⟨?_, s.freeCount + 1, rfl⟩
    have hpos : 0 < s.cmdOffers.length := List.length_pos_iff.mpr (by simpa using hne)
    rw [List.getD_eq_getElem _ _ (Nat.mod_lt _ hpos)]
    exact List.getElem_mem _

end Sys2Proof.Machine
end

