-- ==== Sys2Proof/Laws/Exec.lean ====
section
/-! SUPPORT. The meaning of each instruction as the shared operation it is. -/

namespace Sys2Proof.Machine

variable (s : State)

@[simp] theorem exec_encodePowerOn (m : Mode) (sp : Speed) (t : Byte) :
    exec (.encodePowerOn m sp t) s = whenReset s (takeCommand (if validTemp t then startRun true (packBytes m sp t) (packBytes m sp t)
        else reject .tempRange) s) := rfl

@[simp] theorem exec_encodePowerOff (m : Mode) (sp : Speed) (t : Byte) :
    exec (.encodePowerOff m sp t) s = whenReset s (takeCommand (if validTemp t then startRun false offFirst offSecond
        else reject .tempRange) s) := rfl

@[simp] theorem exec_rejectReserved (p : Bool) (m : BitVec 3) (sp : Speed) (z : BitVec 2) (t : Byte) :
    exec (.rejectReserved p m sp z t) s = whenReset s (takeCommand (reject .reserved) s) := rfl

@[simp] theorem exec_rejectBadMode (p : Bool) (m : BitVec 3) (sp : Speed) (t : Byte) :
    exec (.rejectBadMode p m sp t) s = whenReset s (takeCommand (reject .badMode) s) := rfl

@[simp] theorem exec_rejectTempRange (p : Bool) (m : Mode) (sp : Speed) (t : Byte) :
    exec (.rejectTempRange p m sp t) s = whenReset s (takeCommand (reject .tempRange) s) := rfl

@[simp] theorem exec_hold (lv : Level) (d : Dur) :
    exec (.hold lv d) s = whenReset s (coalescerHold lv d s) := rfl

@[simp] theorem exec_finish :
    exec .finish s = whenReset s (coalescerFinish s) := rfl

@[simp] theorem exec_illegalHreq (op : BitVec 2) (r : BitVec 13) (lv : Bool) (d : Dur) :
    exec (.illegalHreq op r lv d) s = whenReset s (coalescerIllegal s) := rfl

@[simp] theorem exec_leadIn :
    exec .leadIn s = whenReset s (issueHolds holdsLeadIn s) := rfl

@[simp] theorem exec_bitOne :
    exec .bitOne s = whenReset s (issueHolds holdsBitOne s) := rfl

@[simp] theorem exec_bitZero :
    exec .bitZero s = whenReset s (issueHolds holdsBitZero s) := rfl

@[simp] theorem exec_stop :
    exec .stop s = whenReset s (issueHolds holdsStop s) := rfl

@[simp] theorem exec_encodeByte (b : Byte) :
    exec (.encodeByte b) s = whenReset s (issueHolds (holdsByte b) s) := rfl

@[simp] theorem exec_encodePair (b : Byte) :
    exec (.encodePair b) s = whenReset s (issueHolds (holdsPair b) s) := rfl

@[simp] theorem exec_encodeFrame (a b c : Byte) (w : Bool) :
    exec (.encodeFrame a b c w) s = whenReset s (issueHolds (holdsFrame ⟨a, b, c⟩ w) s) := rfl

@[simp] theorem exec_validate (t : Byte) :
    exec (.validate t) s = whenReset s (evaluate (.verdict (if validTemp t then .none else .tempRange)) s) := rfl

@[simp] theorem exec_grey (x : BitVec 4) :
    exec (.grey x) s = whenReset s (evaluate (.code (greyCode x)) s) := rfl

@[simp] theorem exec_pack (m : Mode) (sp : Speed) (t : Byte) :
    exec (.pack m sp t) s = whenReset s (evaluate (.bytes (packBytes m sp t)) s) := rfl

@[simp] theorem exec_pop :
    exec .pop s = whenReset s (popWord s) := rfl

@[simp] theorem exec_reset : exec .reset s = .next (loadReset s) := rfl

/-- Only RESET runs on a block that has not been reset (R242). -/
theorem initialised_of_exec_next {i : Instr} {s t : State} (h : exec i s = .next t)
    (hi : i ≠ .reset) : s.initialised = true := by
  cases i <;> first | exact absurd rfl hi | exact (whenReset_eq_next.mp h).1

end Sys2Proof.Machine
end

