-- ==== Sys2Proof/Laws/PerInstr.lean ====
section
/-! SUPPORT. A statement made per instruction: an operation's word is of the port its row of the opcode
table names, and an operation of a row without a word has none. -/

namespace Sys2Proof

/-- The port a word is of. -/
def PortWord.format : PortWord → Format
  | .cmd _ => .cmd
  | .hreq _ => .hreq

/-- The operation's word is one of its row's port; a composite or host action has no word
(30_encoding.md section 6). -/
def Laws.EncodesAtItsPort.Statement (i : Instr) : Prop :=
  match encode i with
  | some w => w.format = formatOf i
  | none => formatOf i = .composite ∨ formatOf i = .host

theorem Laws.EncodesAtItsPort.encodePowerOn (m : Mode) (sp : Speed) (t : Byte) :
    Laws.EncodesAtItsPort.Statement (.encodePowerOn m sp t) := rfl

theorem Laws.EncodesAtItsPort.encodePowerOff (m : Mode) (sp : Speed) (t : Byte) :
    Laws.EncodesAtItsPort.Statement (.encodePowerOff m sp t) := rfl

theorem Laws.EncodesAtItsPort.rejectReserved (p : Bool) (m : BitVec 3) (sp : Speed)
    (z : BitVec 2) (t : Byte) :
    Laws.EncodesAtItsPort.Statement (.rejectReserved p m sp z t) := rfl

theorem Laws.EncodesAtItsPort.rejectBadMode (p : Bool) (m : BitVec 3) (sp : Speed) (t : Byte) :
    Laws.EncodesAtItsPort.Statement (.rejectBadMode p m sp t) := rfl

theorem Laws.EncodesAtItsPort.rejectTempRange (p : Bool) (m : Mode) (sp : Speed) (t : Byte) :
    Laws.EncodesAtItsPort.Statement (.rejectTempRange p m sp t) := rfl

theorem Laws.EncodesAtItsPort.hold (lv : Level) (d : Dur) :
    Laws.EncodesAtItsPort.Statement (.hold lv d) := rfl

theorem Laws.EncodesAtItsPort.finish :
    Laws.EncodesAtItsPort.Statement .finish := rfl

theorem Laws.EncodesAtItsPort.illegalHreq (op : BitVec 2) (r : BitVec 13) (lv : Bool) (d : Dur) :
    Laws.EncodesAtItsPort.Statement (.illegalHreq op r lv d) := rfl

theorem Laws.EncodesAtItsPort.leadIn :
    Laws.EncodesAtItsPort.Statement .leadIn := Or.inl rfl

theorem Laws.EncodesAtItsPort.bitOne :
    Laws.EncodesAtItsPort.Statement .bitOne := Or.inl rfl

theorem Laws.EncodesAtItsPort.bitZero :
    Laws.EncodesAtItsPort.Statement .bitZero := Or.inl rfl

theorem Laws.EncodesAtItsPort.stop :
    Laws.EncodesAtItsPort.Statement .stop := Or.inl rfl

theorem Laws.EncodesAtItsPort.encodeByte (b : Byte) :
    Laws.EncodesAtItsPort.Statement (.encodeByte b) := Or.inl rfl

theorem Laws.EncodesAtItsPort.encodePair (b : Byte) :
    Laws.EncodesAtItsPort.Statement (.encodePair b) := Or.inl rfl

theorem Laws.EncodesAtItsPort.encodeFrame (a b c : Byte) (withStop : Bool) :
    Laws.EncodesAtItsPort.Statement (.encodeFrame a b c withStop) := Or.inl rfl

theorem Laws.EncodesAtItsPort.validate (t : Byte) :
    Laws.EncodesAtItsPort.Statement (.validate t) := Or.inl rfl

theorem Laws.EncodesAtItsPort.grey (x : BitVec 4) :
    Laws.EncodesAtItsPort.Statement (.grey x) := Or.inl rfl

theorem Laws.EncodesAtItsPort.pack (m : Mode) (sp : Speed) (t : Byte) :
    Laws.EncodesAtItsPort.Statement (.pack m sp t) := Or.inl rfl

theorem Laws.EncodesAtItsPort.pop :
    Laws.EncodesAtItsPort.Statement .pop := Or.inr rfl

theorem Laws.EncodesAtItsPort.reset :
    Laws.EncodesAtItsPort.Statement .reset := Or.inr rfl

end Sys2Proof
end

