-- ==== Sys2Proof/Laws/Step.lean ====
section
/-! SUPPORT. What a step can do, said once: an inversion lemma for `step`. -/

namespace Sys2Proof.Machine

/-- A step that answers a next state is a change of lines or a wait, the run of one instruction, or a
sequencer step. -/
theorem step_eq_next {s t : State} (h : step s = .next t) :
    activity s = .settle t ∨
    (∃ i u, activity s = .run i u ∧ exec i u = .next t) ∨
    (∃ i u v, activity s = .sequence i u ∧ exec i u = .next v ∧ t = advanceUnlessFault v) := by
  unfold step at h
  split at h
  · cases h; exact .inl ‹_›
  · exact .inr (.inl ⟨_, _, ‹_›, h⟩)
  · split at h
    · cases h; exact .inr (.inr ⟨_, _, _, ‹_›, ‹_›, rfl⟩)
    · cases h
    · cases h
  · cases h
  · cases h

/-- Reset goes before everything (R217, R240). -/
@[simp] theorem activity_of_rst {s : State} (h : s.rst = true) :
    activity s = .run .reset { s with rst := false } := by simp [activity, h]

/-- Without a reset or a planned action the device moves. -/
theorem activity_of_quiet {s : State} (hr : s.rst = false) (hs : s.script = []) :
    activity s = deviceTurn s := by simp [activity, hr, hs]

/-- A wait never changes the state. -/
theorem stall_eq (s : State) :
    (s.fault = true ∧ s.script = [] ∧ stall s = .halt s.err) ∨
    ((s.fault = false ∨ s.script ≠ []) ∧ stall s = .settle s) := by
  unfold stall
  cases s.fault <;> cases s.script <;> simp

/-- Everything the device can do in its turn. -/
theorem deviceTurn_cases (s : State) :
    (s.initialised = false ∧ deviceTurn s = .refuse .beforeFirstReset) ∨
    (s.initialised = true ∧ s.out.valid = true ∧ s.outReady = true ∧ deviceTurn s = .run .pop s) ∨
    (s.initialised = true ∧ deviceTurn s = stall s) ∨
    (∃ h hs, s.initialised = true ∧ s.fault = false ∧ s.issuing = h :: hs ∧
      requestReady (.hold h.level h.dur) s = true ∧
      deviceTurn s = .run (.hold h.level h.dur) { s with issuing := hs }) ∨
    (∃ w ws, s.initialised = true ∧ s.fault = false ∧ s.issuing = [] ∧ s.alone = true ∧
      s.hreqs = w :: ws ∧ hreqReady w s = true ∧
      deviceTurn s = .run (decodeHreq w) { s with hreqs := ws }) ∨
    (s.initialised = true ∧ s.fault = false ∧ s.issuing = [] ∧ s.alone = false ∧
      running s.sq.phase = true ∧ prog s.pkx s.pky s.sq.idx.toNat = none ∧
      deviceTurn s = .refuse .outsideProgram) ∨
    (∃ i, s.initialised = true ∧ s.fault = false ∧ s.issuing = [] ∧ s.alone = false ∧
      running s.sq.phase = true ∧ prog s.pkx s.pky s.sq.idx.toNat = some i ∧
      requestReady i s = true ∧ deviceTurn s = .sequence i s) ∨
    (∃ w t, s.initialised = true ∧ s.fault = false ∧ s.issuing = [] ∧ s.alone = false ∧
      cmdReady s = true ∧ takenWord s = some (w, t) ∧ deviceTurn s = .run (decodeCmd w) t) := by
  by_cases hi : s.initialised = true
  swap
  · simp [deviceTurn, hi]
  by_cases hp : s.out.valid = true ∧ s.outReady = true
  · simp [deviceTurn, hi, hp]
  have hp' : (s.out.valid && s.outReady) = false := by simpa using hp
  by_cases hf : s.fault = true
  · have : deviceTurn s = stall s := by simp only [deviceTurn, hi, hp', hf]; simp
    simp [hi, this]
  have hf' : s.fault = false := by simpa using hf
  cases hiss : s.issuing with
  | cons h hs =>
    by_cases hr : requestReady (.hold h.level h.dur) s = true
    · have : deviceTurn s = .run (.hold h.level h.dur) { s with issuing := hs } := by
        simp only [deviceTurn, hi, hp', hf', hiss, hr]; simp
      exact .inr (.inr (.inr (.inl ⟨h, hs, hi, hf', rfl, hr, this⟩)))
    · have : deviceTurn s = stall s := by
        simp only [deviceTurn, hi, hp', hf', hiss, hr]; simp
      simp [hi, this]
  | nil =>
    by_cases ha : s.alone = true
    · have hd : deviceTurn s = portTurn s := by
        simp only [deviceTurn, hi, hp', hf', hiss, ha]; simp
      rw [hd]
      cases hq : s.hreqs with
      | nil => simp [hi, portTurn, hq]
      | cons w ws =>
        by_cases hr : hreqReady w s = true
        · exact .inr (.inr (.inr (.inr (.inl ⟨w, ws, hi, hf', rfl, ha, rfl, hr, by
            simp [portTurn, hq, hr, hiss]⟩))))
        · simp [hi, portTurn, hq, hr]
    · have ha' : s.alone = false := by simpa using ha
      have hd : deviceTurn s = blockTurn s := by
        simp only [deviceTurn, hi, hp', hf', hiss, ha']; simp
      rw [hd]
      by_cases hrun : running s.sq.phase = true
      · cases hg : prog s.pkx s.pky s.sq.idx.toNat with
        | none =>
          exact .inr (.inr (.inr (.inr (.inr (.inl ⟨hi, hf', rfl, ha', hrun, rfl, by
            simp [blockTurn, hrun, hg]⟩)))))
        | some i =>
          by_cases hr : requestReady i s = true
          · exact .inr (.inr (.inr (.inr (.inr (.inr (.inl ⟨i, hi, hf', rfl, ha', hrun, rfl, hr, by
              simp [blockTurn, hrun, hg, hr]⟩))))))
          · simp [hi, blockTurn, hrun, hg, hr]
      · by_cases hc : cmdReady s = true
        · cases ht : takenWord s with
          | none => simp [hi, blockTurn, hrun, hc, ht]
          | some p =>
            exact .inr (.inr (.inr (.inr (.inr (.inr (.inr ⟨p.1, p.2, hi, hf', rfl, ha', hc, rfl, by
              simp [blockTurn, hrun, hc, ht]⟩))))))
        · simp [hi, blockTurn, hrun, hc]

/-- A transition the device takes in its own turn, by kind. -/
inductive DeviceStep (s : State) : State → Prop where
  /-- A word is handed over (R193). -/
  | pop (hi : s.initialised = true) (hv : s.out.valid = true) (hr : s.outReady = true) :
      DeviceStep s (handOver s)
  /-- The next HOLD of a composite is performed (log 10). -/
  | issued (h : Hold) (hs : List Hold) (hi : s.initialised = true) (hf : s.fault = false)
      (hq : s.issuing = h :: hs) (hr : requestReady (.hold h.level h.dur) s = true) :
      DeviceStep s (coalescerHold h.level h.dur { s with issuing := hs })
  /-- A word is taken from the request port (R113). -/
  | request (w : HreqWord) (ws : List HreqWord) (t : State) (hi : s.initialised = true)
      (hf : s.fault = false) (hn : s.issuing = []) (ha : s.alone = true) (hq : s.hreqs = w :: ws)
      (hr : hreqReady w s = true) (ht : exec (decodeHreq w) { s with hreqs := ws } = .next t) :
      DeviceStep s t
  /-- The sequencer issues its next request (R189). -/
  | sequence (i : Instr) (t : State) (hi : s.initialised = true) (hf : s.fault = false)
      (hn : s.issuing = []) (ha : s.alone = false) (hp : running s.sq.phase = true)
      (hg : prog s.pkx s.pky s.sq.idx.toNat = some i) (hr : requestReady i s = true)
      (ht : exec i s = .next t) : DeviceStep s (advanceUnlessFault t)
  /-- A command is taken (R181). -/
  | command (w : CmdWord) (n : Nat) (t : State) (hi : s.initialised = true) (hf : s.fault = false)
      (hn : s.issuing = []) (ha : s.alone = false) (hc : cmdReady s = true)
      (hw : w ∈ s.cmdOffers)
      (ht : exec (decodeCmd w) { s with cmdOffers := [], freeCount := n } = .next t) :
      DeviceStep s t

/-- Only the lines the host drives and its plans differ; a wait differs in nothing. -/
def LinesChange (s t : State) : Prop := ∃ r c o q as,
  t = { s with rst := r, cmdOffers := c, outReady := o, hreqs := q, script := as }

/-- Everything a step that answers a next state can be: a reset; a change of the host's lines and plans,
or a wait; a composite run by itself; or a transition of the device. -/
theorem step_cases {s t : State} (h : step s = .next t) :
    (s.rst = true ∧ t = loadReset { s with rst := false }) ∨
    LinesChange s t ∨
    (∃ i as, performable i s = true ∧ exec i { s with script := as } = .next t) ∨
    (∃ as, DeviceStep { s with script := as } t) := by
  by_cases hr : s.rst = true
  · left
    refine ⟨hr, ?_⟩
    simp only [step, activity_of_rst hr, exec_reset, Host.Outcome.next.injEq] at h
    exact h.symm
  have hr' : s.rst = false := by simpa using hr
  right
  have device : ∀ as, activity s = deviceTurn { s with script := as } →
      LinesChange s t ∨
      (∃ i as, performable i s = true ∧ exec i { s with script := as } = .next t) ∨
      (∃ as, DeviceStep { s with script := as } t) := by
    intro as ha
    have stay : ∀ u : State, u = { s with script := as } → Host.Outcome.next u =
        (Host.Outcome.next t : Host.Outcome State Fault Refusal) → LinesChange s t := by
      intro u hu ht
      cases ht
      exact ⟨s.rst, s.cmdOffers, s.outReady, s.hreqs, as, hu⟩
    rcases deviceTurn_cases { s with script := as } with
      ⟨_, hd⟩ | ⟨hi, hv, ho, hd⟩ | ⟨hi, hd⟩ | ⟨g, gs, hi, hf, hq, hg, hd⟩ |
      ⟨w, ws, hi, hf, hn, hl, hq, hg, hd⟩ | ⟨_, _, _, _, _, _, hd⟩ |
      ⟨i, hi, hf, hn, hl, hp, hg, hq, hd⟩ | ⟨w, u, hi, hf, hn, hl, hc, hw, hd⟩
    · simp [step, ha, hd] at h
    · simp only [step, ha, hd, exec_pop] at h
      obtain ⟨_, rfl⟩ := whenReset_eq_next.mp h
      refine .inr (.inr ⟨as, ?_⟩)
      rw [show popWord { s with script := as } = handOver { s with script := as } from if_pos hv]
      exact .pop hi hv ho
    · rcases stall_eq { s with script := as } with ⟨_, _, hst⟩ | ⟨_, hst⟩
      · simp [step, ha, hd, hst] at h
      · simp only [step, ha, hd, hst] at h
        exact .inl (stay _ rfl h)
    · simp only [step, ha, hd, exec_hold] at h
      obtain ⟨_, rfl⟩ := whenReset_eq_next.mp h
      exact .inr (.inr ⟨as, .issued g gs hi hf hq hg⟩)
    · simp only [step, ha, hd] at h
      exact .inr (.inr ⟨as, .request w ws t hi hf hn hl hq hg h⟩)
    · simp [step, ha, hd] at h
    · simp only [step, ha, hd] at h
      split at h
      · cases h
        exact .inr (.inr ⟨as, .sequence i _ hi hf hn hl hp hg hq ‹_›⟩)
      · cases h
      · cases h
    · simp only [step, ha, hd] at h
      obtain ⟨hmem, n, rfl⟩ := eq_withOffers_of_takenWord hw
      exact .inr (.inr ⟨as, .command w n t hi hf hn hl hc hmem h⟩)
  have line : ∀ u : State, activity s = .settle u → Host.Outcome.next u =
      (Host.Outcome.next t : Host.Outcome State Fault Refusal) := by
    intro u hu
    simpa [step, hu] using h
  cases hs : s.script with
  | nil =>
    refine device [] ?_
    rw [activity_of_quiet hr' hs, ← hs]
  | cons a as =>
    cases a with
    | yield => exact device as (by simp [activity, hr', hs])
    | perform i =>
      by_cases hp : performable i s = true
      · have : activity s = .run i { s with script := as } := by simp [activity, hr', hs, hp]
        simp only [step, this] at h
        exact .inr (.inl ⟨i, as, hp, h⟩)
      · have := line { s with script := as } (by simp [activity, hr', hs, hp])
        cases this
        exact .inl ⟨_, _, _, _, _, rfl⟩
    | _ =>
      have := line (drive _ { s with script := as }) (by simp only [activity, hr', hs]; rfl)
      cases this
      exact .inl ⟨_, _, _, _, _, rfl⟩

end Sys2Proof.Machine
end

