-- ==== Sys2Proof/Laws/Run.lean ====
section
/-! SUPPORT. What the operations a step runs can do, by the port they arrive on, and the shape of the hold
program: its length, and the level of each entry. -/

namespace Sys2Proof.Machine

open Sys2Proof

/-! ### Operations by their port -/

/-- A command that is taken is rejected, or starts the run of an accepted command. -/
theorem exec_decodeCmd_cases {w : CmdWord} {s t : State} (hc : cmdReady s = true)
    (h : exec (decodeCmd w) s = .next t) :
    (∃ c, t = reject c s) ∨
      ∃ c : ValidCommand, inRange c = true ∧
        t = startRun (c != .off) (firstPayload c) (secondPayload c) s := by
  have hT : ∀ f, takeCommand f s = f s := fun f => by simp [takeCommand, hc]
  unfold decodeCmd at h
  split at h
  · simp only [exec_rejectReserved, whenReset_eq_next, hT] at h
    exact .inl ⟨_, h.2.symm⟩
  · split at h
    · simp only [exec_rejectBadMode, whenReset_eq_next, hT] at h
      exact .inl ⟨_, h.2.symm⟩
    · rename_i m _
      split at h
      · rename_i hv
        split at h
        · simp only [exec_encodePowerOn, whenReset_eq_next, hT, hv] at h
          exact .inr ⟨.on m (speedOfPort (cmdS w)) (cmdT w), hv, h.2.symm⟩
        · simp only [exec_encodePowerOff, whenReset_eq_next, hT, hv] at h
          exact .inr ⟨.off, rfl, h.2.symm⟩
      · simp only [exec_rejectTempRange, whenReset_eq_next, hT] at h
        exact .inl ⟨_, h.2.symm⟩

/-- A hold-request word is performed as one of the three requests. -/
theorem exec_decodeHreq_cases {w : HreqWord} {s t : State} (h : exec (decodeHreq w) s = .next t) :
    (∃ lv d, t = coalescerHold lv d s) ∨ t = coalescerFinish s ∨ t = coalescerIllegal s := by
  unfold decodeHreq at h
  split at h
  · simp only [exec_hold, whenReset_eq_next] at h
    exact .inl ⟨_, _, h.2.symm⟩
  · split at h
    · simp only [exec_finish, whenReset_eq_next] at h
      exact .inr (.inl h.2.symm)
    · simp only [exec_illegalHreq, whenReset_eq_next] at h
      exact .inr (.inr h.2.symm)

/-- A request of the hold program is performed as a HOLD or as the FINISH. -/
theorem exec_prog_cases {x y : Payload} {k : Nat} {i : Instr} {s t : State}
    (hi : prog x y k = some i) (h : exec i s = .next t) :
    (∃ lv d, t = coalescerHold lv d s) ∨ t = coalescerFinish s := by
  unfold prog at hi
  split at hi
  · cases hi
    simp only [exec_finish, whenReset_eq_next] at h
    exact .inr h.2.symm
  · simp only [Option.map_eq_some_iff] at hi
    obtain ⟨g, _, rfl⟩ := hi
    simp only [exec_hold, whenReset_eq_next] at h
    exact .inl ⟨_, _, h.2.symm⟩

/-- The host runs operations by themselves outside the integrated block alone (R4). -/
theorem alone_of_performable {i : Instr} {s : State} (hp : performable i s = true) :
    s.alone = true := by
  simp only [performable, Bool.and_eq_true] at hp
  exact hp.1

/-- An operation the host can plan leaves a result, or issues HOLDs. -/
theorem exec_performable_cases {i : Instr} {s t : State} (hp : performable i s = true)
    (h : exec i s = .next t) :
    t = s ∨ (∃ r, t = setResult r s) ∨ ∃ hs, t = { s with issuing := s.issuing ++ hs } := by
  have issues : ∀ hs, issueHolds hs s = t → t = s ∨ (∃ r, t = setResult r s) ∨
      ∃ hs, t = { s with issuing := s.issuing ++ hs } := by
    intro hs e
    rcases issueHolds_cases hs s with ⟨_, e'⟩ | ⟨_, e'⟩ <;> rw [e'] at e
    · exact .inl e.symm
    · exact .inr (.inr ⟨hs, e.symm⟩)
  have results : ∀ r, evaluate r s = t → t = s ∨ (∃ r, t = setResult r s) ∨
      ∃ hs, t = { s with issuing := s.issuing ++ hs } := by
    intro r e
    rcases evaluate_cases r s with ⟨_, e'⟩ | ⟨_, e'⟩ <;> rw [e'] at e
    · exact .inl e.symm
    · exact .inr (.inl ⟨r, e.symm⟩)
  cases i <;> simp [performable, formatOf] at hp <;>
    simp only [exec_leadIn, exec_bitOne, exec_bitZero, exec_stop, exec_encodeByte, exec_encodePair,
      exec_encodeFrame, exec_validate, exec_grey, exec_pack, whenReset_eq_next] at h
  all_goals first
    | exact issues _ h.2
    | exact results _ h.2

/-! ### What a request leaves alone -/

@[simp] theorem coalescerHold_sq (lv : Level) (d : Dur) (s : State) :
    (coalescerHold lv d s).sq = s.sq := by
  unfold coalescerHold; repeat' split
  all_goals rfl

@[simp] theorem coalescerFinish_sq (s : State) : (coalescerFinish s).sq = s.sq := by
  unfold coalescerFinish; repeat' split
  all_goals rfl

@[simp] theorem coalescerIllegal_sq (s : State) : (coalescerIllegal s).sq = s.sq := by
  unfold coalescerIllegal; split <;> rfl

@[simp] theorem coalescerHold_alone (lv : Level) (d : Dur) (s : State) :
    (coalescerHold lv d s).alone = s.alone := by
  unfold coalescerHold; repeat' split
  all_goals rfl

@[simp] theorem coalescerFinish_alone (s : State) : (coalescerFinish s).alone = s.alone := by
  unfold coalescerFinish; repeat' split
  all_goals rfl

@[simp] theorem coalescerIllegal_alone (s : State) : (coalescerIllegal s).alone = s.alone := by
  unfold coalescerIllegal; split <;> rfl

@[simp] theorem coalescerHold_results (lv : Level) (d : Dur) (s : State) :
    (coalescerHold lv d s).results = s.results := by
  unfold coalescerHold; repeat' split
  all_goals rfl

@[simp] theorem coalescerFinish_results (s : State) : (coalescerFinish s).results = s.results := by
  unfold coalescerFinish; repeat' split
  all_goals rfl

@[simp] theorem coalescerHold_received (lv : Level) (d : Dur) (s : State) :
    (coalescerHold lv d s).received = s.received := by
  unfold coalescerHold; repeat' split
  all_goals rfl

@[simp] theorem coalescerFinish_received (s : State) :
    (coalescerFinish s).received = s.received := by
  unfold coalescerFinish; repeat' split
  all_goals rfl

/-! ### The shape of the hold program -/

@[simp] theorem holdsByte_length (b : Byte) : (holdsByte b).length = 16 := by
  have h : ∀ c, (holdsBit c).length = 2 := by decide
  simp [holdsByte, h]

@[simp] theorem holdsPair_length (b : Byte) : (holdsPair b).length = 32 := by simp [holdsPair]

@[simp] theorem holdsFrame_length (p : Payload) (withStop : Bool) :
    (holdsFrame p withStop).length = if withStop then 100 else 98 := by
  cases withStop <;> simp [holdsFrame, holdsLeadIn, holdsStop]

@[simp] theorem progHolds_length (x y : Payload) : (progHolds x y).length = 198 := by
  simp [progHolds]

@[simp] theorem runWords_length (x y : Payload) : (runWords x y).length = 198 := by simp [runWords]

theorem runWords_getElem? {x y : Payload} {k : Nat} {h : Hold} (e : (progHolds x y)[k]? = some h) :
    (runWords x y)[k]? = some ⟨h.dur, k == 197⟩ := by
  simp [runWords, e]

/-- A word's level by position flips from one position to the next. -/
theorem levelAt_succ_eq_of_ne {n : Nat} {lv : Level} (h : lv ≠ levelAt n) : lv = levelAt (n + 1) := by
  unfold levelAt at *
  cases lv <;> rcases Nat.mod_two_eq_zero_or_one n with e | e <;> simp_all <;> omega

end Sys2Proof.Machine
end

