-- ==== Sys2Proof/Machine/Assembly.lean ====
section
/-! DEFINITION. The assembler form of an operation (30_encoding.md R87): what the spec writes for it, and
the words a pseudo-instruction expands to. No transition reads this file. -/

namespace Sys2Proof.Machine

/-- The name of a mode (R87). -/
def modeName : Mode → String
  | .auto => "Auto"
  | .cool => "Cool"
  | .dry => "Dry"
  | .fan => "Fan"
  | .warm => "Warm"

/-- The name of a speed (R87). -/
def speedName : Speed → String
  | .auto => "Auto"
  | .low => "Low"
  | .middle => "Middle"
  | .high => "High"

/-- The name of a level (R87). -/
def levelName : Level → String
  | .high => "High"
  | .low => "Low"

/-- One hexadecimal digit. -/
def hexDigit (n : Nat) : Char := ("0123456789ABCDEF".toList).getD n '0'

/-- `digits` hexadecimal digits of a word, the most significant first. -/
def hexOf (digits : Nat) (n : Nat) : String :=
  "0x" ++ String.ofList ((List.range digits).reverse.map fun k => hexDigit (n / 16 ^ k % 16))

/-- The fields of an accepted command (R87). -/
def cmdFields (m : Mode) (sp : Speed) (t : Byte) : String :=
  modeName m ++ ", " ++ speedName sp ++ ", " ++ toString t.toNat

/-- An operation's word in hexadecimal, for the `raw` lines (R87). -/
def rawOf (i : Instr) : String :=
  match encode i with
  | some (.cmd w) => "CMD raw " ++ hexOf 4 w.toNat
  | some (.hreq w) => "HREQ raw " ++ hexOf 8 w.toNat
  | none => ""

/-- The line of an operation (R87); VALIDATE, GREY and PACK have none. -/
def assemblyOf (i : Instr) : Option String :=
  match i with
  | .encodePowerOn m sp t => some ("CMD on, " ++ cmdFields m sp t)
  | .encodePowerOff m sp t => some ("CMD off, " ++ cmdFields m sp t)
  | .rejectReserved _ _ _ _ _ => some (rawOf i)
  | .rejectBadMode _ _ _ _ => some (rawOf i)
  | .rejectTempRange _ _ _ _ => some (rawOf i)
  | .hold lv d => some ("HOLD " ++ levelName lv ++ ", " ++ toString d.toNat)
  | .finish => some "FINISH"
  | .illegalHreq _ _ _ _ => some (rawOf i)
  | .leadIn => some "LEAD_IN"
  | .bitOne => some "BIT_ONE"
  | .bitZero => some "BIT_ZERO"
  | .stop => some "STOP"
  | .encodeByte b => some ("ENCODE_BYTE " ++ hexOf 2 b.toNat)
  | .encodePair b => some ("ENCODE_PAIR " ++ hexOf 2 b.toNat)
  | .encodeFrame a b c withStop => some ("ENCODE_FRAME " ++ hexOf 2 a.toNat ++ ", " ++
      hexOf 2 b.toNat ++ ", " ++ hexOf 2 c.toNat ++ ", " ++ (if withStop then "1" else "0"))
  | .validate _ => none
  | .grey _ => none
  | .pack _ _ _ => none
  | .pop => some "POP"
  | .reset => some "RESET"

/-- The HOLDs a composite expands to (R130 to R136); no other operation expands. -/
def expansion : Instr → List Hold
  | .leadIn => holdsLeadIn
  | .bitOne => holdsBitOne
  | .bitZero => holdsBitZero
  | .stop => holdsStop
  | .encodeByte b => holdsByte b
  | .encodePair b => holdsPair b
  | .encodeFrame a b c withStop => holdsFrame ⟨a, b, c⟩ withStop
  | .encodePowerOn _ _ _ => []
  | .encodePowerOff _ _ _ => []
  | .rejectReserved _ _ _ _ _ => []
  | .rejectBadMode _ _ _ _ => []
  | .rejectTempRange _ _ _ _ => []
  | .hold _ _ => []
  | .finish => []
  | .illegalHreq _ _ _ _ => []
  | .validate _ => []
  | .grey _ => []
  | .pack _ _ _ => []
  | .pop => []
  | .reset => []

end Sys2Proof.Machine
end

