-- ==== Sys2Proof/Tests/Slice0.lean ====
section
/-! SUPPORT. Tests of the model. Expected values are the spec's: 30_encoding.md sections 2 and 3, the
vectors V, X, E, R-, and table G of 95_test_vectors.md, or hand calculation from the rule named. After the
tests, one witness for the hypotheses of each statement that has some. -/

namespace Sys2Proof.Machine.Tests

open Sys2Proof Sys2Proof.Machine

/-! ### Small states -/

/-- A part of the next state, `none` when there is none. -/
def after {α : Type} (f : State → α) : Host.Outcome State Fault Refusal → Option α
  | .next t => some (f t)
  | .fault _ => none
  | .refused _ => none

/-- A coalescer on its own with these registers. -/
def co (lv : Level) (acc : Dur) (closed : Bool) : State :=
  { State.reset with alone := true, co := ⟨lv, acc, closed⟩ }

/-- The same with the word `(7, 0)` waiting. -/
def coFull (lv : Level) (acc : Dur) (closed : Bool) : State :=
  { co lv acc closed with out := ⟨true, 7, false⟩ }

/-- A coalescer on its own with this word on its port. -/
def port (w : HreqWord) (s : State) : State := { s with hreqs := [w] }

/-- What a coalescer vector lists: the registers, the output register's valid bit, `fault`, `err_code`. -/
def coView (s : State) : Coalescer × Bool × Bool × BitVec 3 :=
  (s.co, s.out.valid, s.fault, errCode s.err)

/-- The reset block with this command word offered. -/
def offer (w : CmdWord) : State := { State.reset with cmdOffers := [w] }

/-- What a command vector lists: `err_code`, the phase's code, `sq.power`, `cmd_ready`. -/
def cmdView (s : State) : BitVec 3 × BitVec 3 × Bool × Bool :=
  (errCode s.err, phaseCode s.sq.phase, s.sq.power, cmdReady s)

/-- A block in the power-off run at index `i`, its output register empty, the earlier words popped. -/
def midRun (i : Nat) : State :=
  { State.reset with
    pkx := offFirst
    pky := offSecond
    sq := ⟨false, phaseOfIdx i, BitVec.ofNat 8 i⟩
    co := coalescerAfter offFirst offSecond i
    received := (runWords offFirst offSecond).take (i - 1) }

/-- A faulted coalescer with a word waiting. -/
def faulted : State := { coFull .low 5 true with fault := true, err := .reuse }

/-! ### WellFormed refuses (R72 to R80, R160) -/

theorem test_wf_on_below : WellFormed (.encodePowerOn .cool .auto 16) = false := by decide
theorem test_wf_on_above : WellFormed (.encodePowerOn .cool .auto 31) = false := by decide
theorem test_wf_off_range : WellFormed (.encodePowerOff .cool .auto 31) = false := by decide
theorem test_wf_reserved_zero : WellFormed (.rejectReserved true 1 .auto 0 25) = false := by decide
theorem test_wf_mode_legal : WellFormed (.rejectBadMode true 4 .auto 25) = false := by decide
theorem test_wf_temp_legal : WellFormed (.rejectTempRange true .cool .auto 17) = false := by decide
theorem test_wf_illegal_is_hold : WellFormed (.illegalHreq 0 0 true 5) = false := by decide
theorem test_wf_illegal_is_finish : WellFormed (.illegalHreq 1 0 false 0) = false := by decide
theorem test_wf_pack_range : WellFormed (.pack .cool .auto 31) = false := by decide

/-! ### Decoding words written out by hand -/

/-- P=1, M=100, S=11, Z=00, T=00011110 (X13). -/
theorem test_decode_power_on :
    decodeCmd 0b1100110000011110 = .encodePowerOn .warm .high 30 := by decide

/-- P=0, M=000, S=00, Z=00, T=00010001 (X8). -/
theorem test_decode_power_off :
    decodeCmd 0b0000000000010001 = .encodePowerOff .auto .auto 17 := by decide

/-- P=0, M=010, S=01, Z=00, T=00010110: Dry, Low, 22 (R72, R73). -/
theorem test_decode_dry_low :
    decodeCmd 0b0010010000010110 = .encodePowerOff .dry .low 22 := by decide

/-- P=1, M=011, S=10, Z=00, T=00010100: Fan, Middle, 20 (R72, R73). -/
theorem test_decode_fan_middle :
    decodeCmd 0b1011100000010100 = .encodePowerOn .fan .middle 20 := by decide

/-- 0xD310: Z goes before mode and temperature (X12). -/
theorem test_decode_reserved :
    decodeCmd 0b1101001100010000 = .rejectReserved true 5 .auto 3 16 := by decide

/-- 0xF010: mode goes before temperature (X10). -/
theorem test_decode_bad_mode :
    decodeCmd 0b1111000000010000 = .rejectBadMode true 7 .auto 16 := by decide

/-- 0x1010: checked although P = 0 (X7). -/
theorem test_decode_temp_range :
    decodeCmd 0b0001000000010000 = .rejectTempRange false .cool .auto 16 := by decide

/-- 0x901F and 0x90FF (X4, X6). -/
theorem test_decode_temp_above :
    decodeCmd 0x901F = .rejectTempRange true .cool .auto 31 ∧
      decodeCmd 0x90FF = .rejectTempRange true .cool .auto 255 := by decide

/-- OP=00, R=0, LV=1, D=4400 (V1). -/
theorem test_decode_hold_high :
    decodeHreq 0b00000000000000010001000100110000 = .hold .high 4400 := by decide

/-- OP=00, R=0, LV=0, D=65535 (V11). -/
theorem test_decode_hold_low : decodeHreq 0x0000FFFF = .hold .low 65535 := by decide

/-- OP=01 and nothing else (R79). -/
theorem test_decode_finish :
    decodeHreq 0b01000000000000000000000000000000 = .finish := by decide

/-- V15, V16, V17, V18. -/
theorem test_decode_illegal :
    decodeHreq 0x80000000 = .illegalHreq 2 0 false 0 ∧
      decodeHreq 0x00020000 = .illegalHreq 0 1 false 0 ∧
      decodeHreq 0x40000001 = .illegalHreq 1 0 false 1 ∧
      decodeHreq 0xC0000000 = .illegalHreq 3 0 false 0 := by decide

/-- The encoder gives the spec's words (30_encoding.md sections 2 and 3). -/
theorem test_encode_examples :
    encode (.encodePowerOn .cool .auto 25) = some (.cmd 0x9019) ∧
      encode (.encodePowerOff .cool .auto 25) = some (.cmd 0x1019) ∧
      encode (.hold .low 1620) = some (.hreq 0x00000654) ∧
      encode .finish = some (.hreq 0x40000000) := by decide

/-- `decodeTableWord` knows the port by the length, and no word has another length, be it that of OUTW
(R85). -/
theorem test_table_word_lengths :
    decodeTableWord 16 0x1019 = some (.encodePowerOff .cool .auto 25) ∧
      decodeTableWord 32 0x1019 = some (.hold .low 4121) ∧
      ∀ n ∈ [0, 8, 15, 17, 24, 31, 33], decodeTableWord n 0x1019 = none := by decide

/-- The lines of R87. -/
theorem test_assembly :
    assemblyOf (.encodePowerOn .cool .auto 25) = some "CMD on, Cool, Auto, 25" ∧
      assemblyOf (.rejectTempRange true .cool .auto 16) = some "CMD raw 0x9010" ∧
      assemblyOf (.hold .high 4400) = some "HOLD High, 4400" ∧
      assemblyOf (.illegalHreq 1 0 false 1) = some "HREQ raw 0x40000001" := by decide

/-! ### Commands: the step takes the word -/

/-- R-1, X3. -/
theorem test_step_temp_range :
    after cmdView (step (offer 0x9010)) = some (1, 0, false, true) := by decide

/-- X9. -/
theorem test_step_bad_mode :
    after cmdView (step (offer 0xD019)) = some (2, 0, false, true) := by decide

/-- R-2: a rejection after a run goes back to Idle and leaves the index. -/
theorem test_step_reserved :
    after (fun t => (cmdView t, t.sq.idx))
        (step { offer 0x9119 with sq := ⟨true, .finished, 199⟩, co := ⟨.low, 540, true⟩ }) =
      some ((3, 0, true, true), 199) := by decide

/-- P2, line 1. -/
theorem test_step_power_off :
    after (fun t => (cmdView t, t.pkx, t.pky, t.co, t.sq.idx))
        (step { offer 0x1019 with err := .tempRange, co := ⟨.low, 9, true⟩ }) =
      some ((0, 1, false, false), ⟨0xB2, 0x7B, 0xE0⟩, ⟨0xB2, 0, 0⟩, ⟨.high, 0, false⟩, 0) := by decide

/-- P3, line 4: byte a is A_ID and both frames carry the same payload. -/
theorem test_step_power_on :
    after (fun t => (cmdView t, t.pkx.a, t.pky.a, t.sq.idx)) (step (offer 0x9011)) =
      some ((0, 1, true, false), 0xB2, 0xB2, 0) := by decide

/-- R-3 and R-4: a command waits in a run, and until the last word is popped. -/
theorem test_command_waits :
    after (·.cmdOffers) (step { midRun 40 with cmdOffers := [0x9119], outReady := false }) =
        some [0x9119] ∧
      after cmdView (step { offer 0x9119 with
        sq := ⟨true, .finished, 199⟩, out := ⟨true, 540, true⟩ }) =
        some (0, 4, true, false) := by decide

/-! ### Requests: the coalescer vectors -/

theorem test_V1 : after coView (step (port 0x00011130 (co .high 0 false))) =
    some (⟨.high, 4400, false⟩, false, false, 0) := by decide

theorem test_V2 : after (fun t => (coView t, t.out.data, t.out.last))
      (step (port 0x00001130 (co .high 4400 false))) =
    some ((⟨.low, 4400, false⟩, true, false, 0), 4400, false) := by decide

theorem test_V3 : after coView (step (port 0x00010000 (co .low 4400 false))) =
    some (⟨.low, 4400, false⟩, false, false, 0) := by decide

theorem test_V5 : after (fun t => (coView t, t.out.data, t.out.last))
      (step (port 0x40000000 (co .high 0 false))) =
    some ((⟨.high, 0, true⟩, true, false, 0), 0, true) := by decide

theorem test_V6 : after (fun t => (coView t, t.out.data, t.out.last))
      (step (port 0x40000000 (co .low 1620 false))) =
    some ((⟨.low, 1620, true⟩, true, false, 0), 1620, true) := by decide

theorem test_V8_V9 : after coView (step (port 0x00010001 (co .high 65534 false))) =
      some (⟨.high, 65535, false⟩, false, false, 0) ∧
    after coView (step (port 0x00010001 (co .high 65535 false))) =
      some (⟨.high, 65535, false⟩, false, true, 4) := by decide

theorem test_V13_V14 : after coView (step (port 0x00010000 (co .low 5 true))) =
      some (⟨.low, 5, true⟩, false, true, 5) ∧
    after coView (step (port 0x40000000 (co .low 5 true))) =
      some (⟨.low, 5, true⟩, false, true, 5) := by decide

theorem test_V15_V18 : after coView (step (port 0x80000000 (co .high 0 false))) =
      some (⟨.high, 0, false⟩, false, true, 6) ∧
    after coView (step (port 0xC0000000 (co .low 5 true))) =
      some (⟨.low, 5, true⟩, false, true, 6) := by decide

theorem test_V19_V20 :
    after (fun t => (coView t, t.hreqs)) (step (port 0x00001130 (coFull .high 4400 false))) =
      some ((⟨.high, 4400, false⟩, true, false, 0), [0x00001130]) ∧
    after (fun t => (coView t, t.hreqs)) (step (port 0x0001000A (coFull .high 4400 false))) =
      some ((⟨.high, 4410, false⟩, true, false, 0), []) := by decide

/-- The fold vectors of section 3. -/
theorem test_fold :
    coalesce [] = .ok [0] ∧ coalesce [⟨.high, 5⟩, ⟨.high, 6⟩] = .ok [11] ∧
      coalesce [⟨.low, 5⟩] = .ok [0, 5] ∧
      coalesce [⟨.high, 5⟩, ⟨.low, 0⟩, ⟨.high, 6⟩, ⟨.low, 2⟩, ⟨.low, 3⟩] = .ok [11, 5] ∧
      coalesce [⟨.high, 0⟩, ⟨.low, 0⟩] = .ok [0] ∧
      coalesce [⟨.high, 1⟩, ⟨.low, 1⟩, ⟨.high, 1⟩, ⟨.low, 1⟩] = .ok [1, 1, 1, 1] :=
  ⟨rfl, rfl, rfl, rfl, rfl, rfl⟩

/-- P4, lines 1 to 3: nothing was emitted before the overflow. -/
theorem test_fold_overflow : coalesce [⟨.high, 65000⟩, ⟨.high, 535⟩, ⟨.high, 1⟩] = .error [] := rfl

/-! ### Composites -/

/-- E1, E2. -/
theorem test_elements :
    after (·.issuing) (exec .leadIn (co .high 0 false)) = some [⟨.high, 4400⟩, ⟨.low, 4400⟩] ∧
      after (·.issuing) (exec .bitOne (co .high 0 false)) = some [⟨.high, 540⟩, ⟨.low, 1620⟩] ∧
      after (·.issuing) (exec .bitZero (co .high 0 false)) = some [⟨.high, 540⟩, ⟨.low, 540⟩] ∧
      after (·.issuing) (exec .stop (co .high 0 false)) = some [⟨.high, 540⟩, ⟨.low, 5220⟩] := by
  decide

/-- E4: the Lows of 0xB2. -/
theorem test_byte :
    after (fun t => (t.issuing.filter (·.level == .low)).map (·.dur))
        (exec (.encodeByte 0xB2) (co .high 0 false)) =
      some [1620, 540, 1620, 1620, 540, 540, 1620, 540] := by decide

/-- E5: the Lows of 0xB2 and of 0x4D. -/
theorem test_pair :
    after (fun t => (t.issuing.filter (·.level == .low)).map (·.dur))
        (exec (.encodePair 0xB2) (co .high 0 false)) =
      some [1620, 540, 1620, 1620, 540, 540, 1620, 540,
        540, 1620, 540, 540, 1620, 1620, 540, 1620] := by decide

/-- E8, and the stop at its end. -/
theorem test_frame :
    after (fun t => (t.issuing.length, (t.issuing.map (·.dur.toNat)).sum,
          t.issuing.getLast?))
        (exec (.encodeFrame 0xB2 0x7B 0xE0 true) (co .high 0 false)) =
      some (100, 92320, some ⟨.low, 5220⟩) := by decide

/-- A composite's HOLD is performed by the device's next step. -/
theorem test_issued_hold :
    after (fun t => (t.co, t.issuing))
        (step { co .high 4400 false with issuing := [⟨.low, 4400⟩, ⟨.high, 540⟩] }) =
      some (⟨.low, 4400, false⟩, [⟨.high, 540⟩]) := by decide

/-! ### Validation and payload -/

/-- S8. -/
theorem test_validate :
    [16, 17, 30, 31].map (fun t => after (·.opResult) (exec (.validate t) State.reset)) =
      [some (.verdict .tempRange), some (.verdict .none), some (.verdict .none),
        some (.verdict .tempRange)] := by decide

/-- Table G, t = 25. -/
theorem test_grey :
    after (·.opResult) (exec (.grey 8) State.reset) = some (.code 0b1100) := by decide

/-- Table G, t = 30, and the identifier byte. -/
theorem test_pack : greyCode (tempOffset 30) = 0b1011 ∧ (packBytes .cool .auto 30).a = 0xB2 := by
  decide

/-! ### The host and the sequencer -/

/-- R-8: a pop while `fault` = 1. -/
theorem test_pop_faulted :
    after (fun t => (t.out.valid, t.fault, t.received))
        (step { faulted with outReady := true }) = some (false, true, [⟨7, false⟩]) := by decide

/-- A pop without a word has no effect (R193). -/
theorem test_pop_empty : after coView (exec .pop (co .low 5 false)) =
    some (⟨.low, 5, false⟩, false, false, 0) := by decide

/-- R-10, P4 line 5. -/
theorem test_reset_faulted :
    after (fun t => (coView t, phaseCode t.sq.phase, t.sq.idx))
        (step { faulted with rst := true, sq := ⟨true, .frame1Emitted, 150⟩ }) =
      some ((⟨.high, 0, false⟩, false, false, 0), 0, 0) := by decide

/-- R247: a reset while the last word waits cuts the run; after that word is popped it does not. -/
theorem test_reset_cuts :
    after (·.results) (step { State.reset with
        rst := true, sq := ⟨false, .finished, 199⟩, co := ⟨.low, 1620, true⟩,
        out := ⟨true, 1620, true⟩ }) = some [.cut] ∧
      after (·.results) (step { State.reset with
        rst := true, sq := ⟨false, .finished, 199⟩, co := ⟨.low, 1620, true⟩ }) = some [] := by
  decide

/-- R4: on the integrated block a composite planned by the host has no effect. -/
theorem test_perform_integrated :
    after (fun t => (t.opResult, t.issuing)) (step { State.reset with
        script := [.perform (.grey 8)] }) = some (.none, []) ∧
      after (·.opResult) (step { co .high 0 false with script := [.perform (.grey 8)] }) =
        some (.code 0b1100) := by decide

/-- R-9: nothing is left to happen. -/
theorem test_faulted_stuck :
    step { faulted with hreqs := [0x40000000] } = .fault (.halted .reuse) := rfl

/-- P2, lines 2 and 3. -/
theorem test_sequencer_first :
    after (fun t => (t.co, t.out.valid, t.sq.idx)) (step (midRun 0)) =
        some (⟨.high, 4400, false⟩, false, 1) ∧
      after (fun t => (t.co, t.out, t.sq.idx)) (step (midRun 1)) =
        some (⟨.low, 4400, false⟩, ⟨true, 4400, false⟩, 2) := by decide

/-- R-5, R-6. -/
theorem test_sequencer_phases :
    after (fun t => (phaseCode t.sq.phase, t.sq.idx)) (step (midRun 98)) = some (1, 99) ∧
      after (fun t => (phaseCode t.sq.phase, t.sq.idx)) (step (midRun 99)) = some (2, 100) ∧
      after (fun t => (phaseCode t.sq.phase, t.sq.idx)) (step (midRun 197)) = some (3, 198) := by
  decide

/-- R-7. -/
theorem test_sequencer_finish :
    after (fun t => (phaseCode t.sq.phase, t.sq.idx, t.co.closed, t.out)) (step (midRun 198)) =
      some (4, 199, true, ⟨true, 1620, true⟩) := by decide

/-- Words 0 to 9, 66 to 71 and 190 to 197 of the table of section 2. -/
theorem test_power_off_words :
    ((commandWords .off).take 10).map (·.data) =
        [4400, 4400, 540, 1620, 540, 540, 540, 1620, 540, 1620] ∧
      (((commandWords .off).drop 66).take 6).map (·.data) =
        [540, 1620, 540, 1620, 540, 1620] ∧
      ((commandWords .off).drop 190).map (·.data) =
        [540, 1620, 540, 1620, 540, 1620, 540, 1620] := by decide +kernel

/-- R196. -/
theorem test_render : render [⟨4400, false⟩, ⟨540, false⟩, ⟨1620, true⟩] = "4400,540,1620" := by
  decide

/-- A word placed by `withFetchWord` is what the next step runs. -/
theorem test_withFetchWord :
    after cmdView (step (State.reset.withFetchWord 16 0xD019)) = some (2, 0, false, true) ∧
      after coView (step (State.reset.withFetchWord 32 0x40000000)) =
        some (⟨.high, 0, true⟩, true, false, 0) := by decide

/-! ### Witnesses: states and operands that meet the hypotheses of a statement -/

/-- For `Obligations.DecodeOfEncode`: a well-formed term of every constructor that has a word. -/
theorem witness_DecodeOfEncode : ∀ i ∈ ([.encodePowerOn .warm .high 30, .encodePowerOff .auto .auto 17,
      .rejectReserved false 7 .high 3 255, .rejectBadMode true 5 .low 0,
      .rejectTempRange false .fan .middle 16, .hold .low 65535, .finish,
      .illegalHreq 1 0 false 1] : List Instr),
    WellFormed i = true ∧ (encode i).isSome = true := by decide

/-- For `Obligations.HoldRequestWordIsExactlyOne`, clause by clause; `0x0001FFFF` and `0x00020000` are
where HOLD ends. -/
theorem witness_HoldRequestWordIsExactlyOne :
    (0x0001FFFF#32).extractLsb' 17 15 = 0#15 ∧ 0x40000000#32 = 0x40000000#32 ∧
      (0x00020000#32).extractLsb' 17 15 ≠ 0#15 ∧ 0x00020000#32 ≠ 0x40000000#32 ∧
      (0x40000001#32).extractLsb' 17 15 ≠ 0#15 ∧ 0x40000001#32 ≠ 0x40000000#32 := by
  decide +kernel

/-- For `Obligations.CommandWordIsExactlyOne`: Z = 1; M = 5; T = 16 and 31; T = 17 and 30 with M = 4. -/
theorem witness_CommandWordIsExactlyOne :
    (0x9119#16).extractLsb' 8 2 ≠ 0#2 ∧
      ((0xD010#16).extractLsb' 8 2 = 0#2 ∧ 5 ≤ ((0xD010#16).extractLsb' 12 3).toNat) ∧
      (∀ w ∈ [0x9010#16, 0x901F#16], w.extractLsb' 8 2 = 0#2 ∧ (w.extractLsb' 12 3).toNat ≤ 4 ∧
        ¬(17 ≤ (w.extractLsb' 0 8).toNat ∧ (w.extractLsb' 0 8).toNat ≤ 30)) ∧
      ∀ w ∈ [0xC011#16, 0x401E#16], w.extractLsb' 8 2 = 0#2 ∧ (w.extractLsb' 12 3).toNat ≤ 4 ∧
        17 ≤ (w.extractLsb' 0 8).toNat ∧ (w.extractLsb' 0 8).toNat ≤ 30 := by
  simp

/-- For `Obligations.PackPlacesItsFields` and every other statement with a legal temperature. -/
theorem witness_PackPlacesItsFields :
    ∀ t ∈ [17#8, 30#8], 17 ≤ t.toNat ∧ t.toNat ≤ 30 := by simp

/-- For `Obligations.ZeroHoldHasNoEffect`, also with a word waiting. -/
theorem witness_ZeroHoldHasNoEffect : ∀ s ∈ [co .low 4400 false, coFull .low 4400 false],
    s.initialised = true ∧ s.fault = false ∧ s.co.closed = false := by decide

/-- For `Obligations.SameLevelHoldAccumulates`: a sum of 0xFFFF (V8). -/
theorem witness_SameLevelHoldAccumulates :
    let s := co .high 65534 false
    s.initialised = true ∧ s.fault = false ∧ s.co.closed = false ∧ (1 : Dur) ≠ 0#16 ∧
      s.co.acc.toNat + (1 : Dur).toNat = 0xFFFF := by decide

/-- For `Obligations.LevelChangeEmits` (V2, and V7 with an empty accumulator). -/
theorem witness_LevelChangeEmits : ∀ s ∈ [co .high 4400 false, co .high 0 false],
    s.initialised = true ∧ s.fault = false ∧ s.co.closed = false ∧ (100 : Dur) ≠ 0#16 ∧
      Level.low ≠ s.co.level ∧ s.out.valid = false := by decide

/-- For `Obligations.OverflowFaults`: a sum of 0x10000 (V9). -/
theorem witness_OverflowFaults :
    let s := co .high 65535 false
    s.initialised = true ∧ s.fault = false ∧ s.co.closed = false ∧
      s.co.acc.toNat + (1 : Dur).toNat > 0xFFFF := by decide

/-- For `Obligations.FinishEmitsFinalWord` (V5, V6). -/
theorem witness_FinishEmitsFinalWord : ∀ s ∈ [co .high 0 false, co .low 1620 false],
    s.initialised = true ∧ s.fault = false ∧ s.co.closed = false ∧ s.out.valid = false := by decide

/-- For `Obligations.UseAfterFinishFaults` (V12), also with a word waiting. -/
theorem witness_UseAfterFinishFaults : ∀ s ∈ [co .low 5 true, coFull .low 5 true],
    s.initialised = true ∧ s.fault = false ∧ s.co.closed = true := by decide

/-- For `Obligations.IllegalRequestFaults` (V15, V18). -/
theorem witness_IllegalRequestFaults : ∀ s ∈ [co .high 0 false, co .low 5 true],
    s.initialised = true ∧ s.fault = false := by decide

/-- A coalescer on its own with a word waiting that the host does not take moves by itself. -/
theorem witness_DeviceMoves : DeviceMoves (coFull .high 4400 false) := ⟨rfl, rfl, rfl, rfl, rfl⟩

/-- For `Obligations.EmittingRequestWaits`, all three clauses (V19). -/
theorem witness_EmittingRequestWaits :
    let s := { coFull .high 4400 false with hreqs := [holdWord ⟨.low, 4400⟩] }
    DeviceMoves s ∧ s.co.closed = false ∧ s.out.valid = true ∧ s.alone = true ∧ s.issuing = [] ∧
      s.hreqs = [holdWord ⟨.low, 4400⟩] ∧ (4400 : Dur) ≠ 0#16 ∧ Level.low ≠ s.co.level :=
  ⟨⟨rfl, rfl, rfl, rfl, rfl⟩, by decide⟩

/-- For `Obligations.RunsCoalesceToTheirSums`: an empty first run, and a run of the greatest sum. -/
theorem witness_RunsCoalesceToTheirSums :
    (([] : List Dur).map BitVec.toNat).sum ≤ 0xFFFF ∧
      ∀ ds ∈ [[5#16], [65000#16, 535#16]], ds ≠ [] ∧ (∀ d ∈ ds, d ≠ 0#16) ∧
        (ds.map BitVec.toNat).sum ≤ 0xFFFF := by simp

/-- The fresh coalescer of P1 with these words to come, its output drained. -/
def drained (ws : List HreqWord) : State :=
  { State.reset with alone := true, outReady := true, hreqs := ws }

theorem freshAlone_drained (ws : List HreqWord) : FreshAlone (drained ws) ws :=
  ⟨rfl, rfl, rfl, rfl, rfl, rfl, rfl, rfl, rfl, rfl, rfl⟩

/-- For `Obligations.CoalescerRefinesFold`: a fault-free list (P1), and one that overflows (P4). -/
theorem witness_CoalescerRefinesFold :
    let good : List Hold := [⟨.high, 100⟩, ⟨.high, 0⟩, ⟨.high, 50⟩, ⟨.low, 30⟩]
    let bad : List Hold := [⟨.high, 65535⟩, ⟨.high, 1⟩]
    FreshAlone (drained (good.map holdWord ++ [0x40000000])) (good.map holdWord ++ [0x40000000]) ∧
      FreshAlone (drained (bad.map holdWord ++ [0x40000000])) (bad.map holdWord ++ [0x40000000]) ∧
      coalesce good = .ok [150, 30] ∧ coalesce bad = .error [] :=
  ⟨freshAlone_drained _, freshAlone_drained _, rfl, rfl⟩

/-- For `Obligations.AccumulatorHoldsPendingRun`. -/
theorem witness_AccumulatorHoldsPendingRun :
    let rs : List Hold := [⟨.high, 100⟩, ⟨.low, 30⟩, ⟨.low, 20⟩]
    FreshAlone (drained (rs.map holdWord)) (rs.map holdWord) ∧ coalesce rs = .ok [100, 50] ∧
      pendingRun rs = (.low, 50) :=
  ⟨freshAlone_drained _, rfl, rfl⟩

/-- For `Obligations.FrameRunsThroughCoalescer`. -/
theorem witness_FrameRunsThroughCoalescer : FreshAlone (drained []) [] := freshAlone_drained []

/-- For `Obligations.PowerOnStartsRun`, `PowerOffStartsRun` and `RejectionRecordsItsCode`: the reset
block, and a block whose run is over. -/
theorem witness_PowerOnStartsRun :
    ∀ s ∈ [State.reset, { State.reset with sq := ⟨true, .finished, 199⟩, co := ⟨.low, 540, true⟩ }],
      s.initialised = true ∧ cmdReady s = true := by decide

/-- For the step clause of `Obligations.CommandWaitsUntilReady`: the last word is unpopped, and a word is
offered (R-4). -/
theorem witness_CommandWaitsUntilReady_step :
    let s := { offer 0x9119 with sq := ⟨true, .finished, 199⟩, out := ⟨true, 540, true⟩ }
    DeviceMoves s ∧ s.alone = false ∧ s.issuing = [] ∧ running s.sq.phase = false ∧
      cmdReady s = false ∧ s.cmdOffers = [0x9119] :=
  ⟨⟨rfl, rfl, rfl, rfl, rfl⟩, by decide⟩

/-- For `Obligations.CommandWaitsUntilReady`: a run, a word waiting after it, and a fault. -/
theorem witness_CommandWaitsUntilReady :
    ∀ s ∈ [midRun 40, { State.reset with sq := ⟨true, .finished, 199⟩, out := ⟨true, 540, true⟩ },
        faulted],
      s.initialised = true ∧ cmdReady s = false := by decide

/-- For `Obligations.TakenCommandIsCheckedInOrder` and `Obligations.StepRunsTakenCommand`, with the words
of `witness_CommandWordIsExactlyOne`. -/
theorem witness_TakesCommand (w : CmdWord) : TakesCommand (offer w) w :=
  ⟨rfl, rfl, rfl, rfl, rfl, rfl, rfl⟩

theorem witness_TakenCommandIsCheckedInOrder : TakesCommand (offer 0xC011) 0xC011 ∧
    (0xC011#16).getLsbD 15 = true ∧ (0xC011#16).extractLsb' 12 3 = 4#3 ∧
    (0xC011#16).extractLsb' 10 2 = 0#2 ∧
    TakesCommand (offer 0x401E) 0x401E ∧ (0x401E#16).getLsbD 15 = false :=
  ⟨witness_TakesCommand _, by decide, by decide, by decide, witness_TakesCommand _, by decide⟩

/-- For `Obligations.RunIgnoresCommandPort` (R-3). -/
theorem witness_RunIgnoresCommandPort :
    let s := midRun 40
    s.alone = false ∧ running s.sq.phase = true ∧ s.rst = false ∧ s.script = [] := by decide

/-- For `Obligations.TakenWordWasOffered`: the host changed the word on the port. -/
theorem witness_TakenWordWasOffered :
    let s := { State.reset with cmdOffers := [0x1019, 0x9119] }
    DeviceMoves s ∧ s.alone = false ∧ s.issuing = [] ∧ cmdReady s = true ∧ s.cmdOffers ≠ [] :=
  ⟨⟨rfl, rfl, rfl, rfl, rfl⟩, by decide⟩

/-- For `Obligations.ElementsIssueTheirHolds`, `Obligations.BytesPairsFramesIssueTheirHolds` and
`Obligations.CombinationalOperationsLeaveTheirResult`. -/
theorem witness_ElementsIssueTheirHolds :
    (co .high 0 false).initialised = true ∧ (co .high 0 false).fault = false := by decide

/-- For `Obligations.IssuedHoldIsPerformed`: a HOLD that can be performed, and one that waits. -/
theorem witness_IssuedHoldIsPerformed :
    let s := { coFull .high 4400 false with issuing := [⟨.high, 540⟩] }
    let t := { coFull .high 4400 false with issuing := [⟨.low, 540⟩] }
    (DeviceMoves s ∧ requestReady (.hold .high 540) s = true) ∧
      DeviceMoves t ∧ requestReady (.hold .low 540) t = false :=
  ⟨⟨⟨rfl, rfl, rfl, rfl, rfl⟩, by decide⟩, ⟨rfl, rfl, rfl, rfl, rfl⟩, by decide⟩

/-- For `Obligations.PopHandsTheWordOver`: no word. -/
theorem witness_PopHandsTheWordOver_empty :
    (co .low 5 false).initialised = true ∧ (co .low 5 false).out.valid = false := by decide

/-- The same: a word that is not the last one, and a step that pops. -/
theorem witness_PopHandsTheWordOver :
    let s := { coFull .low 5 false with outReady := true }
    s.initialised = true ∧ s.out.valid = true ∧ s.out.last = false ∧ s.rst = false ∧
      s.script = [] ∧ s.outReady = true := by decide

/-- The same: the last word. -/
theorem witness_PopHandsTheWordOver_last :
    let s := { co .low 5 true with out := ⟨true, 5, true⟩ }
    s.initialised = true ∧ s.out.valid = true ∧ s.out.last = true := by decide

/-- For `Obligations.ResetLoadsResetValues` and `Obligations.ResetKeepsTheHostsLines`: reset in a run. -/
theorem witness_ResetLoadsResetValues :
    let s := { midRun 40 with rst := true }
    s.rst = true ∧ s.initialised = true ∧ running s.sq.phase = true := by decide

/-- The same, for each reason to record a cut: a run, the last word waiting, words popped, an open
coalescer with a duration. -/
theorem witness_ResetKeepsTheHostsLines_cut :
    (let s := midRun 0; s.initialised = true ∧ running s.sq.phase = true) ∧
      (let s := { State.reset with sq := ⟨false, .finished, 199⟩, out := ⟨true, 1620, true⟩ }
       s.initialised = true ∧ running s.sq.phase = false ∧ s.out.valid = true) ∧
      (let s := { drained [] with received := [⟨7, false⟩] }
       s.initialised = true ∧ s.received ≠ []) ∧
      (let s := co .high 1 false
       s.initialised = true ∧ s.co.closed = false ∧ s.co.acc ≠ 0#16) := by decide

/-- The same, where no cut is recorded: Idle, Finished with the last word popped, before the first
reset. -/
theorem witness_ResetKeepsTheHostsLines_whole :
    (∀ s ∈ [State.reset, { State.reset with
          sq := ⟨false, .finished, 199⟩, co := ⟨.low, 1620, true⟩ }],
        s.initialised = true ∧ running s.sq.phase = false ∧ s.out.valid = false ∧
          s.received = [] ∧ (s.co.closed = true ∨ s.co.acc = 0#16)) ∧
      { State.reset with initialised := false }.initialised = false := by decide

/-- For `Obligations.NothingBeforeFirstReset`. -/
theorem witness_NothingBeforeFirstReset :
    let s := { State.reset with initialised := false }
    s.initialised = false ∧ s.rst = false ∧ s.script = [] ∧ Instr.finish ≠ .reset := by decide

/-- For `Obligations.FaultedBlockIsStuck`: the host does not take the word that waits; and a pop. -/
theorem witness_FaultedBlockIsStuck :
    faulted.initialised = true ∧ faulted.fault = true ∧ faulted.rst = false ∧ faulted.script = [] ∧
      (faulted.out.valid && faulted.outReady) = false ∧
      after (·.fault) (exec .pop faulted) = some true := by decide

/-- For `Obligations.HostActionsChangeLinesOnly`: every action in a run, and a composite on either
device. -/
theorem witness_HostActionsChangeLinesOnly :
    (∀ a ∈ ([.offerCmd 0x1019, .withdrawCmd, .setReady true, .assertRst, .request 0x40000000,
          .withdrawReq, .perform .leadIn] : List HostAct),
        let s := { midRun 40 with script := a :: [.yield] }
        s.rst = false ∧ s.alone = false ∧ s.script = a :: [.yield]) ∧
      (let s := { midRun 40 with script := [.yield] }
       s.rst = false ∧ s.script = [.yield]) ∧
      let s := { co .high 0 false with script := [.perform .leadIn] }
      s.rst = false ∧ s.alone = true ∧ formatOf .leadIn = .composite :=
  ⟨fun _ _ => ⟨rfl, rfl, rfl⟩, ⟨rfl, rfl⟩, rfl, rfl, rfl⟩

/-- For `Obligations.StepRunsRequest`: a word that is taken, and one that waits. -/
theorem witness_StepRunsRequest :
    DeviceMoves (port 0x0001000A (coFull .high 4400 false)) ∧
      hreqReady 0x0001000A (port 0x0001000A (coFull .high 4400 false)) = true ∧
      DeviceMoves (port 0x40000000 (coFull .high 4400 false)) ∧
      hreqReady 0x40000000 (port 0x40000000 (coFull .high 4400 false)) = false :=
  ⟨⟨rfl, rfl, rfl, rfl, rfl⟩, by decide, ⟨rfl, rfl, rfl, rfl, rfl⟩, by decide⟩

/-- For `Obligations.SequencerIssuesItsProgram`: the first and the last index, the indices where the
phase changes, a request that waits, and (in a state no run reaches) one that faults. -/
theorem witness_SequencerIssuesItsProgram :
    (∀ i ∈ [0, 98, 99, 196, 197, 198], running (midRun i).sq.phase = true ∧
        (midRun i).alone = false ∧ (midRun i).issuing = [] ∧
        (prog offFirst offSecond i).isSome = true) ∧
      (∀ i, DeviceMoves (midRun i)) ∧
      requestReady (.hold .low 4400) (midRun 1) = true ∧
      requestReady (.hold .low 4400) { midRun 1 with out := ⟨true, 9, false⟩ } = false ∧
      after (·.fault) (exec (.hold .low 4400) { midRun 1 with co := ⟨.high, 0, true⟩ }) =
        some true :=
  ⟨by decide +kernel, fun _ => ⟨rfl, rfl, rfl, rfl, rfl⟩, by decide +kernel, by decide +kernel,
    by decide +kernel⟩

/-- In the power-off run after its first request the invariant of the integrated block holds. -/
theorem witness_RunInv : RunInv (midRun 1) :=
  ⟨rfl, rfl, fun _ => rfl, fun _ => by decide, fun _ => ⟨.off, rfl, by decide⟩,
    fun h => (nomatch h), fun _ => by decide +kernel, fun h => (nomatch h)⟩

/-- For `Obligations.StepKeepsIntegratedInv`, `StepKeepsPhaseIndexInv`, `StepKeepsLevelInv` and
`AccumulatorStaysBelow5221`: that state in a run, the invariants in it, and the step it takes. -/
theorem witness_StepKeepsIntegratedInv :
    let s := midRun 1
    IntegratedInv s ∧ PhaseIndexInv s ∧ LevelInv s ∧ running s.sq.phase = true ∧
      step s = .next { s with
        co := ⟨.low, 4400, false⟩
        out := ⟨true, 4400, false⟩
        sq := ⟨false, .payloadComputed, 2⟩ } :=
  ⟨fun _ => ⟨fun _ h => (List.not_mem_nil h).elim, fun _ => witness_RunInv⟩,
    fun _ _ => by decide, fun _ => by decide, rfl, rfl⟩

/-- For `Obligations.RunTotals`. -/
theorem witness_RunTotals : inRange .off = true ∧ inRange (.on .cool .auto 17) = true ∧
    inRange (.on .cool .auto 30) = true := by decide

/-- For `Obligations.AcceptedCommandDeliversItsWords`: a power-on and a power-off command. -/
theorem witness_AcceptedCommandDeliversItsWords :
    TakesCommand { offer 0x9019 with outReady := true } 0x9019 ∧
      decodeCmd 0x9019 = .encodePowerOn .cool .auto 25 ∧
      TakesCommand { offer 0x1019 with outReady := true } 0x1019 ∧
      ∃ m sp t, decodeCmd 0x1019 = .encodePowerOff m sp t :=
  ⟨⟨rfl, rfl, rfl, rfl, rfl, rfl, rfl⟩, by decide, ⟨rfl, rfl, rfl, rfl, rfl, rfl, rfl⟩,
    .cool, .auto, 25, by decide⟩

end Sys2Proof.Machine.Tests
end

section
/-! Proofs of the statements about the scope (00_scope.md): how the host's plan drives the step. -/

namespace Sys2Proof.Machine

/-! ### The step of each kind of activity -/

theorem step_of_settle {s t : State} (h : activity s = .settle t) : step s = .next t := by
  simp only [step, h]

theorem step_of_run {s t : State} {i : Instr} (h : activity s = .run i t) : step s = exec i t := by
  simp only [step, h]

theorem step_eq_of_activity_eq {s t : State} (h : activity s = activity t) : step s = step t := by
  simp only [step, h]

/-! ### What a planned action makes the next step do

A planned action is only reached when no reset is asserted (R217). -/

section
variable {s : State} {as : List HostAct} (hr : s.rst = false)
include hr

/-- A `yield` is dropped from the plan, and the device moves. -/
theorem activity_of_yield (hs : s.script = .yield :: as) :
    activity s = deviceTurn { s with script := as } := by
  simp [activity, hr, hs]

theorem activity_of_perform {i : Instr} (hs : s.script = .perform i :: as) :
    activity s = if performable i s then .run i { s with script := as }
      else .settle { s with script := as } := by
  simp [activity, hr, hs]

/-- Every action but a `yield` and a composite planned by itself only drives a line of the host's. -/
theorem activity_of_line {a : HostAct} (hy : a ≠ .yield) (hp : ∀ i, a ≠ .perform i)
    (hs : s.script = a :: as) : activity s = .settle (drive a { s with script := as }) := by
  cases a with
  | yield => exact absurd rfl hy
  | perform i => exact absurd rfl (hp i)
  | _ => simp only [activity, hr, hs, Bool.false_eq_true, if_false]

theorem step_of_line {a : HostAct} (hy : a ≠ .yield) (hp : ∀ i, a ≠ .perform i)
    (hs : s.script = a :: as) : step s = .next (drive a { s with script := as }) :=
  step_of_settle (activity_of_line hr hy hp hs)

/-- The last `yield` of a plan leaves the step to the device, as an empty plan does. -/
theorem step_of_yield_last (hs : s.script = [.yield]) : step s = step { s with script := [] } := by
  have quiet : activity { s with script := [] } = deviceTurn { s with script := [] } :=
    activity_of_quiet hr rfl
  exact step_eq_of_activity_eq ((activity_of_yield hr hs).trans quiet.symm)

/-- The integrated block is reached through its ports alone (R4). -/
theorem step_of_perform_integrated {i : Instr} (hs : s.script = .perform i :: as)
    (ha : s.alone = false) : step s = .next { s with script := as } := by
  have blocked : ¬ performable i s = true := fun hp => by
    simpa [ha] using alone_of_performable hp
  exact step_of_settle ((activity_of_perform hr hs).trans (if_neg blocked))

theorem step_of_perform_alone {i : Instr} (hs : s.script = .perform i :: as)
    (ha : s.alone = true) (hi : formatOf i = .composite) :
    step s = exec i { s with script := as } := by
  have allowed : performable i s = true := by simp [performable, ha, hi]
  exact step_of_run ((activity_of_perform hr hs).trans (if_pos allowed))

end

/-- Settles O47: each action by the lemma of its kind; the six that drive a line by `step_of_line`. -/
theorem hostActionsChangeLinesOnly : Obligations.HostActionsChangeLinesOnly := by
  intro s as hr
  refine ⟨step_of_yield_last hr, fun w => ?offerCmd, ?withdrawCmd, fun b => ?setReady, ?assertRst,
    fun w => ?request, ?withdrawReq, fun i hs ha => step_of_perform_integrated hr hs ha,
    fun i hs ha hi => step_of_perform_alone hr hs ha hi⟩
  all_goals exact step_of_line hr HostAct.noConfusion (fun _ => HostAct.noConfusion)

end Sys2Proof.Machine
end

section
/-! Proofs of the statements about the state (10_state.md): reset, the status outputs, the relation of
phase and index, the invariant of the integrated block, and what the accumulator holds. -/

namespace Sys2Proof.Machine

/-! ### Phases and their indices -/

theorem phaseAfter_eq_phaseOfIdx (n : Nat) : phaseAfter n = phaseOfIdx n := rfl

theorem phaseOfIdx_ne_idle (n : Nat) : phaseOfIdx n ≠ .idle := by
  unfold phaseOfIdx
  repeat' split
  all_goals exact Phase.noConfusion

theorem running_phaseOfIdx (n : Nat) : running (phaseOfIdx n) = true ↔ n ≤ 198 := by
  unfold phaseOfIdx
  repeat' split
  all_goals simp only [running, Bool.false_eq_true, true_iff, false_iff]
  all_goals omega

theorem phaseOfIdx_eq_finished (n : Nat) : phaseOfIdx n = .finished ↔ 199 ≤ n := by
  unfold phaseOfIdx
  repeat' split
  all_goals simp only [reduceCtorEq, true_iff, false_iff]
  all_goals omega

theorem ne_idle_of_running {p : Phase} (h : running p = true) : p ≠ .idle := by
  rintro rfl
  exact Bool.noConfusion h

/-- A phase in which nothing is issued is Idle or Finished. -/
theorem not_running_iff (p : Phase) : running p = false ↔ p = .idle ∨ p = .finished := by
  cases p <;> simp [running]

theorem running_iff (p : Phase) : running p = true ↔
    p = .payloadComputed ∨ p = .frame1Emitted ∨ p = .frame2Emitted := by
  cases p <;> simp [running]

theorem idx_add_one_toNat {k : BitVec 8} (h : k.toNat ≤ 198) : (k + 1).toNat = k.toNat + 1 := by
  bv_omega

/-- R35 as one equation: outside Idle the phase is the index's. -/
theorem phaseIndexInv_iff (s : State) :
    PhaseIndexInv s ↔ (s.fault = false → s.sq.phase ≠ .idle →
      s.sq.idx.toNat ≤ 199 ∧ s.sq.phase = phaseOfIdx s.sq.idx.toNat) := by
  unfold PhaseIndexInv phaseOfIdx
  refine imp_congr_right fun _ => imp_congr_right fun hp => ?_
  generalize s.sq.phase = p at *
  constructor
  · rintro ⟨h0, h1, h2, h3⟩
    cases p with
    | idle => exact absurd rfl hp
    | payloadComputed =>
      have hk := h0.mp rfl
      exact ⟨by omega, (if_pos hk).symm⟩
    | frame1Emitted =>
      obtain ⟨hlo, hhi⟩ := h1.mp rfl
      exact ⟨by omega, by rw [if_neg (by omega), if_pos hhi]⟩
    | frame2Emitted =>
      have hk := h2.mp rfl
      exact ⟨by omega, by rw [if_neg (by omega), if_neg (by omega), if_pos hk]⟩
    | finished =>
      have hk := h3.mp rfl
      exact ⟨by omega, by rw [if_neg (by omega), if_neg (by omega), if_neg (by omega)]⟩
  · rintro ⟨hle, h⟩
    repeat' split at h
    all_goals
      subst h
      simp only [reduceCtorEq, true_iff, false_iff]
      omega

/-! ### The entries of the hold program (R188) -/

theorem holdsBit_levels (bit : Bool) : (holdsBit bit).map Hold.level = [.high, .low] := by
  cases bit <;> rfl

theorem dur_ne_zero_of_mem_holdsBit {bit : Bool} {h : Hold} (hm : h ∈ holdsBit bit) :
    h.dur ≠ 0#16 := by
  revert h; revert bit; decide

theorem holdsByte_levels (b : Byte) : (holdsByte b).map Hold.level = (List.range 16).map levelAt := by
  simp only [holdsByte, List.map_flatMap, holdsBit_levels]
  rfl

theorem holdsPair_levels (b : Byte) : (holdsPair b).map Hold.level = (List.range 32).map levelAt := by
  simp only [holdsPair, List.map_append, holdsByte_levels]
  rfl

theorem holdsFrame_levels (p : Payload) (withStop : Bool) :
    (holdsFrame p withStop).map Hold.level =
      (List.range (if withStop then 100 else 98)).map levelAt := by
  simp only [holdsFrame, List.map_append, holdsPair_levels]
  cases withStop <;> rfl

/-- High at even indices, Low at odd ones. -/
theorem progHolds_levels (x y : Payload) :
    (progHolds x y).map Hold.level = (List.range 198).map levelAt := by
  simp only [progHolds, List.map_append, holdsFrame_levels]
  rfl

theorem dur_ne_zero_of_mem_holdsPair {b : Byte} {h : Hold} (hm : h ∈ holdsPair b) :
    h.dur ≠ 0#16 := by
  simp only [holdsPair, holdsByte, List.mem_append, List.mem_flatMap] at hm
  rcases hm with ⟨_, _, hb⟩ | ⟨_, _, hb⟩ <;> exact dur_ne_zero_of_mem_holdsBit hb

theorem dur_ne_zero_of_mem_holdsFrame {p : Payload} {withStop : Bool} {h : Hold}
    (hm : h ∈ holdsFrame p withStop) : h.dur ≠ 0#16 := by
  have lead : ∀ g ∈ holdsLeadIn, g.dur ≠ 0#16 := by decide
  have stop : ∀ g ∈ (if withStop then holdsStop else []), g.dur ≠ 0#16 := by
    cases withStop <;> decide
  simp only [holdsFrame, List.mem_append] at hm
  rcases hm with (((hl | ha) | hb) | hc) | hs
  · exact lead h hl
  · exact dur_ne_zero_of_mem_holdsPair ha
  · exact dur_ne_zero_of_mem_holdsPair hb
  · exact dur_ne_zero_of_mem_holdsPair hc
  · exact stop h hs

section
variable {x y : Payload} {k : Nat} {h : Hold} (e : (progHolds x y)[k]? = some h)
include e

theorem progHolds_level : h.level = levelAt k := by
  have hk : k < 198 := by
    simpa using (List.getElem?_eq_some_iff.mp e).1
  have hl : ((progHolds x y).map Hold.level)[k]? = ((List.range 198).map levelAt)[k]? := by
    rw [progHolds_levels]
  simpa only [List.getElem?_map, e, List.getElem?_range hk, Option.map_some,
    Option.some.injEq] using hl

theorem progHolds_dur_ne_zero : h.dur ≠ 0#16 := by
  have hm := List.mem_of_getElem? e
  rw [progHolds, List.mem_append] at hm
  exact hm.elim dur_ne_zero_of_mem_holdsFrame dur_ne_zero_of_mem_holdsFrame

theorem coalescerAfter_succ : coalescerAfter x y (k + 1) = ⟨h.level, h.dur, false⟩ := by
  simp [coalescerAfter, e]

theorem runWords_take_succ :
    (runWords x y).take (k + 1) = (runWords x y).take k ++ [⟨h.dur, k == 197⟩] := by
  rw [List.take_add_one, runWords_getElem? e]
  rfl

end

theorem exists_progHolds (x y : Payload) {k : Nat} (hk : k < 198) :
    ∃ h, (progHolds x y)[k]? = some h :=
  ⟨_, List.getElem?_eq_getElem (by simpa using hk)⟩

/-- Neighbouring HOLDs of the program are of opposite levels. -/
theorem levelAt_succ_ne (k : Nat) : levelAt (k + 1) ≠ levelAt k := by
  unfold levelAt
  rcases Nat.mod_two_eq_zero_or_one k with e | e <;> simp [e, Nat.add_mod]

/-- Every entry below 198 is a HOLD of the list, and entry 198 is FINISH. -/
theorem prog_eq_some {x y : Payload} {k : Nat} {i : Instr} (h : prog x y k = some i) :
    (k = 198 ∧ i = .finish) ∨
      (k < 198 ∧ ∃ g, (progHolds x y)[k]? = some g ∧ i = .hold g.level g.dur) := by
  unfold prog at h
  split at h
  · exact .inl ⟨‹_›, (Option.some.inj h).symm⟩
  · obtain ⟨g, hg, rfl⟩ := Option.map_eq_some_iff.mp h
    have hk : k < 198 := by simpa using (List.getElem?_eq_some_iff.mp hg).1
    exact .inr ⟨hk, g, hg, rfl⟩

theorem idx_le_of_prog {x y : Payload} {k : Nat} {i : Instr} (h : prog x y k = some i) :
    k ≤ 198 := by
  rcases prog_eq_some h with ⟨hk, -⟩ | ⟨hk, -⟩ <;> omega

/-! ### Frames of a step -/

@[simp] theorem advanceUnlessFault_alone (s : State) : (advanceUnlessFault s).alone = s.alone := by
  unfold advanceUnlessFault
  split <;> rfl

/-- No step changes which device this is (R113). -/
theorem step_alone {s t : State} (h : step s = .next t) : t.alone = s.alone := by
  rcases step_cases h with ⟨_, rfl⟩ | ⟨_, _, _, _, _, rfl⟩ | ⟨i, as, hp, he⟩ | ⟨as, hd⟩
  · rfl
  · rfl
  · rcases exec_performable_cases (s := { s with script := as }) hp he with
      rfl | ⟨_, rfl⟩ | ⟨_, rfl⟩ <;> rfl
  · cases hd with
    | pop => rfl
    | issued => simp
    | request w ws t hi hf hn ha hq hr ht =>
      rcases exec_decodeHreq_cases ht with ⟨_, _, rfl⟩ | rfl | rfl <;> simp
    | sequence i t hi hf hn ha hp hg hr ht =>
      rcases exec_prog_cases hg ht with ⟨_, _, rfl⟩ | rfl <;> simp
    | command w n t hi hf hn ha hc hw ht =>
      rcases exec_decodeCmd_cases (s := { s with script := as, cmdOffers := [], freeCount := n })
        hc ht with ⟨_, rfl⟩ | ⟨_, _, rfl⟩ <;> rfl

/-! ### The relation of phase and index (R35) -/

theorem phaseIndexInv_of_idle {s : State} (h : s.sq.phase = .idle) : PhaseIndexInv s :=
  fun _ hne => absurd h hne

/-- The relation reads the phase, the index and `fault` alone, and a raised fault only weakens it. -/
theorem phaseIndexInv_of_sq_eq {s t : State} (hq : t.sq = s.sq)
    (hf : t.fault = false → s.fault = false) (hs : PhaseIndexInv s) : PhaseIndexInv t := by
  intro ht
  rw [hq]
  exact hs (hf ht)

/-- The sequencer's update takes the phase that goes with the next index (R190). -/
theorem phaseIndexInv_advance {s : State} (hk : s.sq.idx.toNat ≤ 198) :
    PhaseIndexInv (advance s) := by
  refine (phaseIndexInv_iff _).mpr fun _ _ => ?_
  rw [advance_sq]
  dsimp only
  rw [idx_add_one_toNat hk]
  exact ⟨by omega, phaseAfter_eq_phaseOfIdx _⟩

theorem phaseIndexInv_startRun (p : Bool) (x y : Payload) (s : State) :
    PhaseIndexInv (startRun p x y s) :=
  (phaseIndexInv_iff _).mpr fun _ _ => ⟨Nat.zero_le _, rfl⟩

/-- A transition of the device keeps the relation: only the sequencer and a taken command write phase
and index. -/
theorem DeviceStep.keeps_phaseIndexInv {s t : State} (hd : DeviceStep s t) (hs : PhaseIndexInv s) :
    PhaseIndexInv t := by
  cases hd with
  | pop => exact phaseIndexInv_of_sq_eq (handOver_sq s) id hs
  | issued h hs' hi hf => exact phaseIndexInv_of_sq_eq (coalescerHold_sq _ _ _) (fun _ => hf) hs
  | request w ws t hi hf hn ha hq hr ht =>
    refine phaseIndexInv_of_sq_eq ?_ (fun _ => hf) hs
    rcases exec_decodeHreq_cases ht with ⟨_, _, rfl⟩ | rfl | rfl <;> simp
  | sequence i u hi hf hn ha hp hg hr ht =>
    have hu : u.sq = s.sq := by rcases exec_prog_cases hg ht with ⟨_, _, rfl⟩ | rfl <;> simp
    rcases advanceUnlessFault_cases u with ⟨_, e⟩ | ⟨_, e⟩ <;> rw [e]
    · exact phaseIndexInv_of_sq_eq hu (fun _ => hf) hs
    · exact phaseIndexInv_advance (by rw [hu]; exact idx_le_of_prog hg)
  | command w n t hi hf hn ha hc hw ht =>
    rcases exec_decodeCmd_cases (s := { s with cmdOffers := [], freeCount := n }) hc ht with
      ⟨_, rfl⟩ | ⟨_, _, rfl⟩
    · exact phaseIndexInv_of_idle rfl
    · exact phaseIndexInv_startRun _ _ _ _

/-- Settles O53: reset ends in Idle, the host's lines and a composite run by itself leave phase and index
alone, and the device keeps the relation. -/
theorem stepKeepsPhaseIndexInv : Obligations.StepKeepsPhaseIndexInv := by
  intro s t hs h
  rcases step_cases h with ⟨_, rfl⟩ | ⟨_, _, _, _, _, rfl⟩ | ⟨i, as, hp, he⟩ | ⟨as, hd⟩
  · exact phaseIndexInv_of_idle rfl
  · exact hs
  · rcases exec_performable_cases (s := { s with script := as }) hp he with
      rfl | ⟨_, rfl⟩ | ⟨_, rfl⟩ <;> exact hs
  · exact hd.keeps_phaseIndexInv hs

/-! ### The words a run has emitted (R67) -/

theorem emittedWords_of_waiting {s : State} (hv : s.out.valid = true) :
    emittedWords s = s.received ++ [⟨s.out.data, s.out.last⟩] := by
  simp [emittedWords, pendingWord, hv]

theorem emittedWords_of_empty {s : State} (hv : s.out.valid = false) :
    emittedWords s = s.received := by
  simp [emittedWords, pendingWord, hv]

theorem last_of_runWords_getElem? {x y : Payload} {k : Nat} {o : OutWord}
    (e : (runWords x y)[k]? = some o) : o.last = (k == 197) := by
  simp only [runWords, List.getElem?_mapIdx, Option.map_eq_some_iff] at e
  obtain ⟨h, -, rfl⟩ := e
  rfl

/-- Of the words of a run only the last of all 198 is marked (R191). -/
theorem last_of_append_eq_take {x y : Payload} {ws : List OutWord} {o : OutWord} {n : Nat}
    (hn : n ≤ 198) (h : ws ++ [o] = (runWords x y).take n) : o.last = true ↔ n = 198 := by
  have hlen : ws.length + 1 = n := by
    have := congrArg List.length h
    simp only [List.length_append, List.length_singleton, List.length_take, runWords_length] at this
    omega
  have ho : (runWords x y)[ws.length]? = some o := by
    rw [← List.getElem?_take_of_lt (show ws.length < n by omega), ← h, List.getElem?_concat_length]
  rw [last_of_runWords_getElem? ho, beq_iff_eq]
  omega

/-! ### The invariant of the integrated block, transition by transition -/

/-- The index of a run that is on. -/
theorem RunInv.idx_le {s : State} (R : RunInv s) (hp : running s.sq.phase = true) :
    s.sq.idx.toNat ≤ 198 := by
  rw [(R.phaseIdx (ne_idle_of_running hp)).2] at hp
  exact (running_phaseOfIdx _).mp hp

/-- The waiting word is the last one exactly when the run is over (R104, R191). -/
theorem RunInv.last_iff {s : State} (R : RunInv s) (hv : s.out.valid = true) :
    s.out.last = true ↔ s.sq.phase = .finished := by
  have hw := emittedWords_of_waiting hv
  cases hp : running s.sq.phase with
  | true =>
    have hk := R.idx_le hp
    have hl := last_of_append_eq_take (by omega) (hw.symm.trans (R.inRun hp).2)
    have hne : s.sq.phase ≠ .finished := by
      intro e
      rw [e] at hp
      exact Bool.noConfusion hp
    simp only [hne, iff_false, hl]
    omega
  | false =>
    rcases (not_running_iff _).mp hp with hi | hf
    · exact absurd hv (by simp [(R.idleEmpty hi).1])
    · rcases (R.afterRun hf).2 with ⟨-, he⟩ | ⟨he, -⟩
      · have htake : emittedWords s = (runWords s.pkx s.pky).take 198 := by
          rw [he, List.take_of_length_le (by simp)]
        simp only [hf, iff_true]
        exact (last_of_append_eq_take le_rfl (hw.symm.trans htake)).mpr rfl
      · exact absurd hv (by simp [he])

/-- Handing over a word other than the last only moves it to the host's record; handing over the last
one empties the record. -/
theorem RunInv.kept_by_handOver {s : State} (R : RunInv s) (hv : s.out.valid = true) :
    RunInv (handOver s) := by
  have hidle : s.sq.phase ≠ .idle := fun e => by simp [(R.idleEmpty e).1] at hv
  have hempty : (handOver s).out.valid = false := rfl
  refine ⟨R.noFault, R.noIssue, R.noErr, R.phaseIdx, R.payload, fun e => absurd e hidle, ?_, ?_⟩
  · intro hp
    refine ⟨(R.inRun hp).1, ?_⟩
    have hl : s.out.last ≠ true := fun e => by
      rw [handOver_sq, (R.last_iff hv).mp e] at hp
      exact Bool.noConfusion hp
    have hsame : emittedWords (handOver s) = emittedWords s := by
      rw [emittedWords_of_empty hempty, emittedWords_of_waiting hv, handOver_received, if_neg hl]
    exact hsame.trans (R.inRun hp).2
  · intro hf
    refine ⟨(R.afterRun hf).1, .inr ⟨hempty, ?_⟩⟩
    rw [handOver_received, if_pos ((R.last_iff hv).mpr hf)]

/-- A run that a pop ends delivered all its words (R191). -/
theorem RunInv.results_of_handOver {s : State} (R : RunInv s) (hv : s.out.valid = true) :
    ∀ r ∈ (handOver s).results, r ∈ s.results ∨ resultSound r := by
  intro r hr
  rw [handOver_results] at hr
  split at hr
  · rename_i hl
    rcases List.mem_append.mp hr with hr | hr
    · exact .inl hr
    · right
      have hf := (R.last_iff hv).mp hl
      have hidle : s.sq.phase ≠ .idle := by rw [hf]; exact Phase.noConfusion
      obtain ⟨c, hc, -, hx, hy⟩ := R.payload hidle
      have hall : emittedWords s = runWords s.pkx s.pky := by
        rcases (R.afterRun hf).2 with ⟨-, he⟩ | ⟨he, -⟩
        · exact he
        · exact absurd hv (by simp [he])
      rw [List.mem_singleton.mp hr, ← emittedWords_of_waiting hv, hall, hx, hy]
      exact ⟨⟨c, hc, rfl⟩, R.noErr hidle⟩
  · exact .inl hr

theorem advanceUnlessFault_of_noFault {s : State} (hf : s.fault = false) :
    advanceUnlessFault s = advance s := by
  simp [advanceUnlessFault, hf]

/-- The form of every sequencer step of a run: a request that writes the coalescer and the output register
and leaves in them what the next index asks for, then the sequencer's update. -/
theorem RunInv.kept_by_advance {s : State} (R : RunInv s) (hp : running s.sq.phase = true)
    (c : Coalescer) (o : OutReg)
    (hon : s.sq.idx.toNat < 198 → c = coalescerAfter s.pkx s.pky (s.sq.idx.toNat + 1) ∧
      emittedWords { s with co := c, out := o } = (runWords s.pkx s.pky).take s.sq.idx.toNat)
    (hover : s.sq.idx.toNat = 198 → c.closed = true ∧ o.valid = true ∧
      emittedWords { s with co := c, out := o } = runWords s.pkx s.pky) :
    RunInv (advanceUnlessFault { s with co := c, out := o }) := by
  rw [advanceUnlessFault_of_noFault (by exact R.noFault)]
  have hidle := ne_idle_of_running hp
  have hk := R.idx_le hp
  have hidx : (s.sq.idx + 1).toNat = s.sq.idx.toNat + 1 := idx_add_one_toNat hk
  refine ⟨R.noFault, R.noIssue, fun _ => R.noErr hidle, fun _ => ?_, fun _ => R.payload hidle,
    fun e => absurd e (phaseOfIdx_ne_idle _), fun hq => ?_, fun hq => ?_⟩
  · simp only [advance_sq, hidx]
    exact ⟨by omega, rfl⟩
  · have hlt : s.sq.idx.toNat + 1 ≤ 198 := (running_phaseOfIdx _).mp hq
    simp only [advance_sq, hidx]
    exact hon (by omega)
  · have hge : 199 ≤ s.sq.idx.toNat + 1 := (phaseOfIdx_eq_finished _).mp hq
    obtain ⟨hc, hv, he⟩ := hover (by omega)
    exact ⟨hc, .inl ⟨hv, he⟩⟩

/-! ### The requests of a run -/

/-- A request that would emit is performed with the output register empty alone (R108). -/
theorem empty_of_requestReady {i : Instr} {s : State} (hr : requestReady i s = true)
    (hw : wouldEmit i s = true) : s.out.valid = false := by
  simpa [requestReady, hw] using And.right (Bool.and_eq_true_iff.mp hr)

section
variable {s : State} {lv : Level} {d : Dur} (hf : s.fault = false) (hc : s.co.closed = false)
  (hd : d ≠ 0#16)
include hf hc hd

/-- A HOLD of the current level that fits accumulates (R101). -/
theorem coalescerHold_of_same (hl : lv = s.co.level) (ha : s.co.acc.toNat + d.toNat ≤ 0xFFFF) :
    coalescerHold lv d s = setCo ⟨s.co.level, s.co.acc + d, false⟩ s := by
  simp [coalescerHold, hf, hc, hd, hl, Nat.not_lt.mpr ha]

/-- A HOLD of the other level emits when the output register is empty (R102). -/
theorem coalescerHold_of_other (hl : lv ≠ s.co.level) (hv : s.out.valid = false) :
    coalescerHold lv d s = setCo ⟨lv, d, false⟩ (emit s.co.acc false s) := by
  simp [coalescerHold, hf, hc, hd, hl, hv]

end

theorem coalescerFinish_of_open {s : State} (hf : s.fault = false) (hc : s.co.closed = false)
    (hv : s.out.valid = false) :
    coalescerFinish s = setCo ⟨s.co.level, s.co.acc, true⟩ (emit s.co.acc true s) := by
  simp [coalescerFinish, hf, hc, hv]

section
variable {s : State} (R : RunInv s) (hp : running s.sq.phase = true)
include R hp

/-- The first request of a run, a HOLD of the fresh level, is accumulated and emits nothing. -/
theorem RunInv.kept_by_first_hold {g : Hold} (hk : s.sq.idx.toNat = 0)
    (e : (progHolds s.pkx s.pky)[s.sq.idx.toNat]? = some g) :
    RunInv (advanceUnlessFault (coalescerHold g.level g.dur s)) := by
  have hco : s.co = freshCoalescer := by rw [(R.inRun hp).1, hk]; rfl
  have hl : g.level = s.co.level := by rw [progHolds_level e, hk, hco]; rfl
  have hfits : s.co.acc.toNat + g.dur.toNat ≤ 0xFFFF := by
    rw [hco, show freshCoalescer.acc.toNat = 0 from rfl]
    have := g.dur.isLt
    omega
  rw [coalescerHold_of_same R.noFault (by rw [hco]; rfl) (progHolds_dur_ne_zero e) hl hfits]
  refine R.kept_by_advance hp _ s.out (fun _ => ⟨?_, ?_⟩) (fun h => by omega)
  · rw [coalescerAfter_succ e, hl, hco]
    simp [freshCoalescer]
  · have hem := (R.inRun hp).2
    rw [hk] at hem ⊢
    exact hem

/-- A later HOLD of a run is of the other level: it emits the one before it (R191). -/
theorem RunInv.kept_by_next_hold {g : Hold} {k : Nat} (hk : s.sq.idx.toNat = k + 1)
    (e : (progHolds s.pkx s.pky)[s.sq.idx.toNat]? = some g)
    (hr : requestReady (.hold g.level g.dur) s = true) :
    RunInv (advanceUnlessFault (coalescerHold g.level g.dur s)) := by
  have hlt : s.sq.idx.toNat < 198 := by simpa using (List.getElem?_eq_some_iff.mp e).1
  obtain ⟨b, hb⟩ := exists_progHolds s.pkx s.pky (show k < 198 by omega)
  obtain ⟨hco, hem⟩ := R.inRun hp
  rw [hk, coalescerAfter_succ hb] at hco
  have hc : s.co.closed = false := by rw [hco]
  have hd := progHolds_dur_ne_zero e
  have hl : g.level ≠ s.co.level := by
    rw [hco, progHolds_level e, progHolds_level hb, hk]
    exact levelAt_succ_ne k
  have hv : s.out.valid = false := empty_of_requestReady hr (by simp [wouldEmit, hc, hd, hl])
  rw [coalescerHold_of_other R.noFault hc hd hl hv]
  refine R.kept_by_advance hp _ ⟨true, s.co.acc, false⟩
    (fun _ => ⟨(coalescerAfter_succ e).symm, ?_⟩) (fun h => by omega)
  · rw [emittedWords_of_empty hv, hk] at hem
    have hlast : (k == 197) = false := beq_false_of_ne (by omega)
    rw [emittedWords_of_waiting rfl, hk, runWords_take_succ hb, hlast, hco]
    exact congrArg (· ++ _) hem

/-- FINISH emits the last HOLD of the run and closes the coalescer (R104, R191). -/
theorem RunInv.kept_by_finish (hk : s.sq.idx.toNat = 198) (hr : requestReady .finish s = true) :
    RunInv (advanceUnlessFault (coalescerFinish s)) := by
  obtain ⟨b, hb⟩ := exists_progHolds s.pkx s.pky (show 197 < 198 by omega)
  obtain ⟨hco, hem⟩ := R.inRun hp
  rw [hk, coalescerAfter_succ hb] at hco
  have hc : s.co.closed = false := by rw [hco]
  have hv : s.out.valid = false := empty_of_requestReady hr (by simp [wouldEmit, hc])
  rw [coalescerFinish_of_open R.noFault hc hv]
  refine R.kept_by_advance hp _ ⟨true, s.co.acc, true⟩ (fun h => by omega) (fun _ => ⟨rfl, rfl, ?_⟩)
  rw [emittedWords_of_empty hv, hk] at hem
  have hall : runWords s.pkx s.pky = (runWords s.pkx s.pky).take 197 ++ [⟨b.dur, true⟩] := by
    have := runWords_take_succ hb
    rwa [List.take_of_length_le (by simp)] at this
  rw [emittedWords_of_waiting rfl, hall, hco]
  exact congrArg (· ++ _) hem

/-- Every sequencer step of a run keeps the invariant (R189). -/
theorem RunInv.kept_by_sequence {i : Instr} {t : State}
    (hg : prog s.pkx s.pky s.sq.idx.toNat = some i) (hr : requestReady i s = true)
    (ht : exec i s = .next t) : RunInv (advanceUnlessFault t) := by
  rcases prog_eq_some hg with ⟨hk, rfl⟩ | ⟨-, g, e, rfl⟩
  · obtain ⟨-, rfl⟩ := whenReset_eq_next.mp ht
    exact R.kept_by_finish hp hk hr
  · obtain ⟨-, rfl⟩ := whenReset_eq_next.mp ht
    rcases Nat.eq_zero_or_eq_succ_pred s.sq.idx.toNat with hk | hk
    · exact R.kept_by_first_hold hp hk e
    · exact R.kept_by_next_hold hp hk e hr

end

/-! ### Commands and reset -/

/-- A block that can take a command holds no word of a run, waiting or recorded (R183). -/
theorem RunInv.empty_of_cmdReady {s : State} (R : RunInv s) (hc : cmdReady s = true) :
    s.out.valid = false ∧ s.received = [] := by
  simp only [cmdReady, Bool.and_eq_true, Bool.not_eq_true'] at hc
  obtain ⟨⟨-, hv⟩, hp⟩ := hc
  rcases (not_running_iff _).mp hp with hi | hf
  · exact R.idleEmpty hi
  · rcases (R.afterRun hf).2 with ⟨hw, -⟩ | h
    · exact absurd hw (by simp [hv])
    · exact h

/-- In Idle the invariant asks for no fault, nothing to be issued and no word. -/
theorem runInv_of_idle {s : State} (hi : s.sq.phase = .idle) (hf : s.fault = false)
    (hn : s.issuing = []) (hv : s.out.valid = false) (hw : s.received = []) : RunInv s :=
  have absurdIn {P : Prop} (h : s.sq.phase ≠ .idle) : P := absurd hi h
  ⟨hf, hn, absurdIn, absurdIn, absurdIn, fun _ => ⟨hv, hw⟩,
    fun h => absurdIn (ne_idle_of_running h), fun h => absurdIn (by rw [h]; exact Phase.noConfusion)⟩

theorem runInv_loadReset (s : State) : RunInv (loadReset s) := runInv_of_idle rfl rfl rfl rfl rfl

/-- The start of an accepted command's run (R184): a fresh coalescer and nothing emitted. -/
theorem runInv_startRun {s : State} {c : ValidCommand} (hc : inRange c = true)
    (hf : s.fault = false) (hn : s.issuing = []) (hv : s.out.valid = false) :
    RunInv (startRun (c != .off) (firstPayload c) (secondPayload c) s) :=
  ⟨hf, hn, fun _ => rfl, fun _ => ⟨Nat.zero_le _, rfl⟩, fun _ => ⟨c, hc, rfl, rfl, rfl⟩,
    fun h => Phase.noConfusion h, fun _ => ⟨rfl, emittedWords_of_empty hv⟩,
    fun h => Phase.noConfusion h⟩

/-- Taking a command, accepted or rejected, keeps the invariant and ends no run (R181). -/
theorem RunInv.kept_by_command {s t : State} {w : CmdWord} (R : RunInv s) (hc : cmdReady s = true)
    (ht : exec (decodeCmd w) s = .next t) : RunInv t ∧ t.results = s.results := by
  obtain ⟨hv, hw⟩ := R.empty_of_cmdReady hc
  rcases exec_decodeCmd_cases hc ht with ⟨_, rfl⟩ | ⟨c, hr, rfl⟩
  · exact ⟨runInv_of_idle rfl R.noFault R.noIssue hv hw, rfl⟩
  · exact ⟨runInv_startRun hr R.noFault R.noIssue hv, rfl⟩

/-! ### The invariant of the integrated block, for every step -/

theorem DeviceStep.initialised {s t : State} (hd : DeviceStep s t) : s.initialised = true := by
  cases hd <;> assumption

@[simp] theorem advanceUnlessFault_results (s : State) :
    (advanceUnlessFault s).results = s.results := by
  unfold advanceUnlessFault
  split <;> rfl

/-- The invariant reads neither the lines and the plans of the host nor the counter of free values. -/
theorem RunInv.of_lines {s : State} (R : RunInv s) (r : Bool) (c : List CmdWord) (o : Bool)
    (q : List HreqWord) (as : List HostAct) (n : Nat) :
    RunInv { s with rst := r, cmdOffers := c, outReady := o, hreqs := q, script := as,
                    freeCount := n } :=
  ⟨R.noFault, R.noIssue, R.noErr, R.phaseIdx, R.payload, R.idleEmpty, R.inRun, R.afterRun⟩

/-- A transition of the integrated block keeps the invariant of its run, and a run it ends was sound. -/
theorem DeviceStep.keeps_runInv {s t : State} (hd : DeviceStep s t) (ha : s.alone = false)
    (R : RunInv s) : RunInv t ∧ ∀ r ∈ t.results, r ∈ s.results ∨ resultSound r := by
  cases hd with
  | pop hi hv => exact ⟨R.kept_by_handOver hv, R.results_of_handOver hv⟩
  | issued h hs hi hf hq => exact absurd (R.noIssue.symm.trans hq) (List.cons_ne_nil _ _).symm
  | request w ws t hi hf hn hl => exact absurd (ha.symm.trans hl) Bool.false_ne_true
  | sequence i u hi hf hn hl hp hg hr ht =>
    refine ⟨R.kept_by_sequence hp hg hr ht, fun r h => .inl ?_⟩
    rcases exec_prog_cases hg ht with ⟨_, _, rfl⟩ | rfl <;> simpa using h
  | command w n t hi hf hn hl hc hw ht =>
    obtain ⟨hrun, hres⟩ :=
      (R.of_lines s.rst [] s.outReady s.hreqs s.script n).kept_by_command hc ht
    exact ⟨hrun, fun r h => .inl (hres ▸ h)⟩

/-- A reset adds to the ended runs at most one that was cut (R247). -/
theorem results_of_loadReset {s : State} {r : RunResult} (h : r ∈ (loadReset s).results) :
    r ∈ s.results ∨ resultSound r := by
  rw [loadReset_results] at h
  split at h
  · rcases List.mem_append.mp h with h | h
    · exact .inl h
    · exact .inr (by rw [List.mem_singleton.mp h]; trivial)
  · exact .inl h

/-- Settles O52: reset ends in Idle with nothing recorded but a cut, the host's lines are not read, a
composite by itself runs outside the integrated block alone, and each transition of the device keeps the
invariant of the run. -/
theorem stepKeepsIntegratedInv : Obligations.StepKeepsIntegratedInv := by
  intro s t hs h hat
  have ha : s.alone = false := step_alone h ▸ hat
  obtain ⟨hres, hrun⟩ := hs ha
  rcases step_cases h with ⟨_, rfl⟩ | ⟨r, c, o, q, as, rfl⟩ | ⟨i, as, hp, _⟩ | ⟨as, hd⟩
  · exact ⟨fun r hr => (results_of_loadReset hr).elim (hres r) id, fun _ => runInv_loadReset _⟩
  · exact ⟨hres, fun hi => (hrun hi).of_lines r c o q as s.freeCount⟩
  · exact absurd (ha.symm.trans (alone_of_performable hp)) Bool.false_ne_true
  · have R := (hrun hd.initialised).of_lines s.rst s.cmdOffers s.outReady s.hreqs as s.freeCount
    obtain ⟨ht, hrest⟩ := hd.keeps_runInv ha R
    exact ⟨fun r hr => (hrest r hr).elim (hres r) id, fun _ => ht⟩

/-! ### Reset, the status outputs and the reset state -/

/-- Settles O41: a reset asserted goes first, and loads its values after `rst` is released. -/
theorem resetLoadsResetValues : Obligations.ResetLoadsResetValues := by
  intro s
  refine ⟨loadReset s, exec_reset s, rfl, rfl, rfl, rfl, rfl, rfl, fun hr => ?_⟩
  exact ⟨loadReset { s with rst := false }, step_of_run (activity_of_rst hr),
    rfl, rfl, rfl, rfl, rfl, rfl, rfl⟩

/-- Settles O44: the three conditions by the phases in which requests are issued, the two codes by their
tables; the rest are the registers. -/
theorem statusOutputsAreAsListed : Obligations.StatusOutputsAreAsListed := by
  intro s
  refine ⟨?cmdReady, ?busy, ?done, ?phase, ?errCode, rfl, rfl, rfl, rfl⟩
  case cmdReady => simp [outputs, Machine.cmdReady, not_running_iff, and_assoc]
  case busy => simp [outputs, Machine.busy, running_iff, or_assoc]
  case done => simp [outputs, Machine.done, and_assoc]
  case phase => simp only [outputs]; cases s.sq.phase <;> rfl
  case errCode => simp only [outputs]; cases s.err <;> rfl

/-- Settles O51: the reset state is in Idle, its coalescer fresh, and nothing is emitted. -/
theorem resetMeetsTheInvariants : Obligations.ResetMeetsTheInvariants :=
  ⟨fun _ => ⟨fun _ h => absurd h List.not_mem_nil, fun _ => runInv_of_idle rfl rfl rfl rfl rfl⟩,
    phaseIndexInv_of_idle rfl, fun _ => ⟨fun h => Bool.noConfusion h, fun _ => rfl⟩⟩

/-! ### Runs of several steps -/

section
variable {M : Host.Core} {n : Nat} {s t : M.State}

theorem coreRun_succ_of_step (h : M.step s = .next t) : M.run (n + 1) s = M.run n t := by
  rw [Host.Core.run, h]

theorem coreRun_succ_eq_next (h : M.run (n + 1) s = .next t) :
    ∃ u, M.step s = .next u ∧ M.run n u = .next t := by
  rw [Host.Core.run] at h
  split at h
  · exact ⟨_, ‹_›, h⟩
  · cases h
  · cases h

end

theorem runN_zero (s : State) : runN 0 s = .next s := rfl

theorem runN_succ_of_step {s t : State} (h : step s = .next t) (n : Nat) :
    runN (n + 1) s = runN n t :=
  coreRun_succ_of_step (M := core) h

/-- Runs that follow each other are one run. -/
theorem runN_add {m : Nat} {s t : State} (h : runN m s = .next t) (n : Nat) :
    runN (m + n) s = runN n t := by
  induction m generalizing s with
  | zero =>
    cases h
    rw [Nat.zero_add]
  | succ m ih =>
    obtain ⟨u, hs, hu⟩ := coreRun_succ_eq_next (M := core) h
    rw [Nat.add_right_comm]
    exact (runN_succ_of_step hs (m + n)).trans (ih hu)

/-! ### The pending run of a list of HOLDs (R25) -/

/-- The run a coalescer is accumulating: its level and its duration so far (R37). -/
def pendingOf (c : Coalescer) : Level × Nat := (c.level, c.acc.toNat)

/-- What one HOLD makes of the pending run (R100 to R102). -/
def pendingAfter (p : Level × Nat) (h : Hold) : Level × Nat :=
  if h.dur = 0#16 then p
  else if h.level = p.1 then (p.1, p.2 + h.dur.toNat)
  else (h.level, h.dur.toNat)

/-- The pending run of a list of HOLDs is built up one HOLD at a time. -/
theorem pendingRun_concat (rs : List Hold) (h : Hold) :
    pendingRun (rs ++ [h]) = pendingAfter (pendingRun rs) h := by
  unfold pendingRun pendingAfter
  by_cases hd : h.dur = 0#16
  · simp [hd, List.filter_append]
  · rw [List.filter_append, List.filter_cons_of_pos (by simpa using hd), List.filter_nil,
      List.reverse_append, List.reverse_singleton, List.singleton_append, if_neg hd]
    cases (rs.filter fun h => h.dur != 0#16).reverse with
    | nil => by_cases hl : h.level = .high <;> simp [hl]
    | cons g more =>
      by_cases hl : h.level = g.level
      · simp [hl, Nat.add_comm]
      · simp [hl, Ne.symm hl]

theorem pendingRun_eq_foldl (rs : List Hold) : pendingRun rs = rs.foldl pendingAfter (.high, 0) := by
  induction rs using List.reverseRecOn with
  | nil => rfl
  | append_singleton rs h ih => rw [pendingRun_concat, ih, List.foldl_concat]

/-- A list of HOLDs that the fold of R112 accepts: no HOLD of it overflows the accumulator, and what it
leaves of the pending run is accepted too. -/
theorem coalesceFrom_cons_eq_ok {lv : Level} {acc : Nat} {h : Hold} {rs : List Hold}
    {out ws : List Nat} (e : coalesceFrom lv acc (h :: rs) out = .ok ws) :
    (h.dur ≠ 0#16 → h.level = lv → acc + h.dur.toNat ≤ 0xFFFF) ∧
      ∃ out', coalesceFrom (pendingAfter (lv, acc) h).1 (pendingAfter (lv, acc) h).2 rs out' =
        .ok ws := by
  unfold coalesceFrom at e
  unfold pendingAfter
  by_cases hd : h.dur = 0#16
  · rw [if_pos hd] at e
    exact ⟨fun hne => absurd hd hne, out, by rwa [if_pos hd]⟩
  rw [if_neg hd] at e
  rw [if_neg hd]
  by_cases hl : h.level = lv
  · rw [if_pos hl] at e
    split at e
    · cases e
    · exact ⟨fun _ _ => by omega, out, by rwa [if_pos hl]⟩
  · rw [if_neg hl] at e
    exact ⟨fun _ h' => absurd h' hl, _, by rwa [if_neg hl]⟩

/-- A HOLD that does not overflow, on an open coalescer with the output register empty, writes the
coalescer and the output register alone, and the pending run is the next one. -/
theorem coalescerHold_pending {s : State} {h : Hold} (hf : s.fault = false)
    (hc : s.co.closed = false) (hv : s.out.valid = false)
    (hfits : h.dur ≠ 0#16 → h.level = s.co.level → s.co.acc.toNat + h.dur.toNat ≤ 0xFFFF) :
    ∃ c o, coalescerHold h.level h.dur s = { s with co := c, out := o } ∧ c.closed = false ∧
      pendingOf c = pendingAfter (pendingOf s.co) h := by
  unfold pendingAfter pendingOf
  by_cases hd : h.dur = 0#16
  · refine ⟨s.co, s.out, ?_, hc, (if_pos hd).symm⟩
    rw [coalescerHold, if_neg (by simp [hf]), if_neg (by simp [hc]), if_pos hd]
  rw [if_neg hd]
  by_cases hl : h.level = s.co.level
  · have ha := hfits hd hl
    refine ⟨_, _, coalescerHold_of_same hf hc hd hl ha, rfl, ?_⟩
    rw [if_pos hl, BitVec.toNat_add_of_lt (by omega)]
  · exact ⟨_, _, coalescerHold_of_other hf hc hd hl hv, rfl, (if_neg hl).symm⟩

/-! ### A coalescer on its own, drained by the host -/

@[simp] theorem decodeHreq_holdWord (h : Hold) : decodeHreq (holdWord h) = .hold h.level h.dur := by
  simp [decodeHreq, holdWord]

/-- A coalescer on its own, open and drained by the host, with these HOLDs to come; a word may be
waiting. -/
structure DrainedOpen (s : State) (rs : List Hold) : Prop where
  isReset  : s.initialised = true
  isAlone  : s.alone = true
  noFault  : s.fault = false
  isOpen   : s.co.closed = false
  drained  : s.outReady = true
  requests : s.hreqs = rs.map holdWord
  noRst    : s.rst = false
  noScript : s.script = []
  noIssue  : s.issuing = []

theorem FreshAlone.drainedOpen {s : State} {rs : List Hold} (h : FreshAlone s (rs.map holdWord)) :
    DrainedOpen s rs :=
  ⟨h.isReset, h.isAlone, h.noFault, by rw [h.fresh]; rfl, h.drained, h.requests, h.noRst,
    h.noScript, h.noIssue⟩

/-- A waiting word goes first: the host takes it, and the coalescer keeps its pending run. -/
theorem DrainedOpen.step_of_waiting {s : State} {rs : List Hold} (D : DrainedOpen s rs)
    (hv : s.out.valid = true) : step s = .next (handOver s) ∧ DrainedOpen (handOver s) rs := by
  constructor
  · have hturn : deviceTurn s = .run .pop s := by simp [deviceTurn, D.isReset, D.drained, hv]
    rw [step_of_run ((activity_of_quiet D.noRst D.noScript).trans hturn), exec_pop,
      whenReset_of_initialised D.isReset, popWord, if_pos hv]
  · exact ⟨D.isReset, D.isAlone, D.noFault, D.isOpen, D.drained, D.requests, D.noRst, D.noScript,
      D.noIssue⟩

/-- With no word waiting the next HOLD is taken from the port and performed; when it does not overflow,
the coalescer stays open and its pending run is the next one. -/
theorem DrainedOpen.step_of_empty {s : State} {h : Hold} {rs : List Hold}
    (D : DrainedOpen s (h :: rs)) (hv : s.out.valid = false)
    (hfits : h.dur ≠ 0#16 → h.level = s.co.level → s.co.acc.toNat + h.dur.toNat ≤ 0xFFFF) :
    ∃ t, step s = .next t ∧ DrainedOpen t rs ∧
      pendingOf t.co = pendingAfter (pendingOf s.co) h := by
  have hready : hreqReady (holdWord h) s = true := by simp [hreqReady, requestReady, D.noFault, hv]
  have hturn : deviceTurn s = .run (.hold h.level h.dur) { s with hreqs := rs.map holdWord } := by
    simp [deviceTurn, portTurn, D.isReset, D.isAlone, D.noFault, D.noIssue, D.requests, hv, hready]
  obtain ⟨c, o, e, hc, hp⟩ := coalescerHold_pending (s := { s with hreqs := rs.map holdWord })
    D.noFault D.isOpen hv hfits
  refine ⟨{ s with hreqs := rs.map holdWord, co := c, out := o }, ?_,
    ⟨D.isReset, D.isAlone, D.noFault, hc, D.drained, rfl, D.noRst, D.noScript,
    D.noIssue⟩, hp⟩
  rw [step_of_run ((activity_of_quiet D.noRst D.noScript).trans hturn), exec_hold,
    whenReset_of_initialised (by exact D.isReset), e]

/-- One HOLD that does not overflow takes at most two steps: the waiting word is handed over, if there is
one, and the HOLD is performed. -/
theorem DrainedOpen.run_hold {s : State} {h : Hold} {rs : List Hold} (D : DrainedOpen s (h :: rs))
    (hfits : h.dur ≠ 0#16 → h.level = s.co.level → s.co.acc.toNat + h.dur.toNat ≤ 0xFFFF) :
    ∃ n ≤ 2, ∃ t, runN n s = .next t ∧ DrainedOpen t rs ∧
      pendingOf t.co = pendingAfter (pendingOf s.co) h := by
  cases hv : s.out.valid with
  | false =>
    obtain ⟨t, hs, ht⟩ := D.step_of_empty hv hfits
    exact ⟨1, by omega, t, runN_succ_of_step hs 0, ht⟩
  | true =>
    obtain ⟨hpop, D'⟩ := D.step_of_waiting hv
    obtain ⟨t, hs, ht⟩ := D'.step_of_empty rfl hfits
    exact ⟨2, le_rfl, t, (runN_succ_of_step hpop 1).trans (runN_succ_of_step hs 0), ht⟩

/-- A list of HOLDs that the fold accepts is performed without a fault, and the pending run is the fold's
(R25). -/
theorem DrainedOpen.run_holds {rs : List Hold} : ∀ {s : State} {out ws : List Nat}, DrainedOpen s rs →
    coalesceFrom s.co.level s.co.acc.toNat rs out = .ok ws →
    ∃ n ≤ 2 * rs.length, ∃ t, runN n s = .next t ∧ DrainedOpen t [] ∧
      pendingOf t.co = rs.foldl pendingAfter (pendingOf s.co) := by
  induction rs with
  | nil => exact fun {s} _ _ D _ => ⟨0, le_rfl, s, runN_zero s, D, rfl⟩
  | cons h rs ih =>
    intro s out ws D e
    obtain ⟨hfits, out', e'⟩ := coalesceFrom_cons_eq_ok e
    obtain ⟨n, hn, u, hu, Du, hp⟩ := D.run_hold hfits
    rw [show (s.co.level, s.co.acc.toNat) = pendingOf s.co from rfl, ← hp] at e'
    obtain ⟨m, hm, t, ht, Dt, hq⟩ := ih Du e'
    refine ⟨n + m, ?_, t, (runN_add hu m).trans ht, Dt, ?_⟩
    · rw [List.length_cons]
      omega
    · rw [hq, hp, List.foldl_cons]

/-- Settles O27: by induction on the HOLDs, the pending run of a drained coalescer is built up as that of
the list is. -/
theorem accumulatorHoldsPendingRun : Obligations.AccumulatorHoldsPendingRun := by
  intro s rs ws F e
  have hfresh : pendingOf s.co = (.high, 0) := by rw [F.fresh]; rfl
  have hfold : coalesceFrom s.co.level s.co.acc.toNat rs [] = .ok ws := by rw [F.fresh]; exact e
  obtain ⟨n, hn, t, ht, D, hp⟩ := F.drainedOpen.run_holds hfold
  rw [hfresh, ← pendingRun_eq_foldl] at hp
  exact ⟨n, hn, t, ht, D.noFault, D.requests, congrArg Prod.fst hp, congrArg Prod.snd hp⟩

end Sys2Proof.Machine
end

section
/-! Proofs of the statements about what is kept between steps and what is handed over (20_memory.md): the
alternation of levels, the command port during a run, the order of a byte's elements, and POP. -/

namespace Sys2Proof.Machine

/-! ### The alternation of levels (R56, R111) -/

/-- What `LevelInv` says of a block that has been reset. -/
def Alternates (s : State) : Prop :=
  (s.out.valid = true → s.out.last = s.co.closed) ∧
    (s.co.closed = false → s.co.level = levelAt (emittedWords s).length)

theorem levelInv_iff (s : State) : LevelInv s ↔ (s.initialised = true → Alternates s) := Iff.rfl

/-- With no word waiting or recorded, a fresh coalescer is at the level of a run's first word (R38). -/
theorem alternates_of_fresh {s : State} (hc : s.co = freshCoalescer) (hv : s.out.valid = false)
    (hw : s.received = []) : Alternates s := by
  refine ⟨fun h => absurd (hv.symm.trans h) Bool.false_ne_true, fun _ => ?_⟩
  rw [hc, emittedWords_of_empty hv, hw]
  rfl

theorem out_empty_of_cmdReady {s : State} (hc : cmdReady s = true) : s.out.valid = false := by
  simp only [cmdReady, Bool.and_eq_true, Bool.not_eq_true'] at hc
  obtain ⟨⟨_, hv⟩, _⟩ := hc
  exact hv

section
variable {s : State} (A : Alternates s)
include A

/-- A HOLD that emits puts an open word in the register and goes on at the level of the position after
it; any other HOLD leaves level, record and register alone (R102). -/
theorem Alternates.kept_by_hold (lv : Level) (d : Dur) : Alternates (coalescerHold lv d s) := by
  rcases coalescerHold_cases lv d s with ⟨_, e⟩ | ⟨_, _, e⟩ | ⟨_, _, _, e⟩ | ⟨_, _, _, _, _, e⟩ |
    ⟨_, _, _, _, _, e⟩ | ⟨_, _, _, _, _, e⟩ | ⟨_, hc, _, hl, hv, e⟩ <;> rw [e]
  any_goals exact A
  obtain ⟨_, hlevel⟩ := A
  rw [hlevel hc, emittedWords_of_empty hv] at hl
  refine ⟨fun _ => hc.symm, fun _ => ?_⟩
  rw [emittedWords_of_waiting rfl, List.length_append, List.length_singleton]
  exact levelAt_succ_eq_of_ne hl

/-- The word FINISH emits is the last one, and the coalescer is closed (R104). -/
theorem Alternates.kept_by_finish : Alternates (coalescerFinish s) := by
  rcases coalescerFinish_cases s with ⟨_, e⟩ | ⟨_, _, e⟩ | ⟨_, _, _, e⟩ | ⟨_, _, _, e⟩ <;> rw [e]
  any_goals exact A
  exact ⟨fun _ => rfl, Bool.noConfusion⟩

theorem Alternates.kept_by_illegal : Alternates (coalescerIllegal s) := by
  rcases coalescerIllegal_cases s with ⟨_, e⟩ | ⟨_, e⟩ <;> rw [e] <;> exact A

/-- A popped word moves from the register to the record; only the word of a closed coalescer empties the
record (R193). -/
theorem Alternates.kept_by_handOver (hv : s.out.valid = true) : Alternates (handOver s) := by
  obtain ⟨hlast, hlevel⟩ := A
  refine ⟨Bool.noConfusion, fun hc => ?_⟩
  have hopen : s.out.last = false := (hlast hv).trans hc
  rw [handOver_co, hlevel hc, emittedWords_of_waiting hv, emittedWords_of_empty rfl,
    handOver_received, hopen]
  rfl

/-- A rejected command leaves the registers; an accepted one starts a run with nothing waiting (R184). -/
theorem Alternates.kept_by_command {t : State} {w : CmdWord} (hc : cmdReady s = true)
    (ht : exec (decodeCmd w) s = .next t) : Alternates t := by
  have hv := out_empty_of_cmdReady hc
  rcases exec_decodeCmd_cases hc ht with ⟨_, rfl⟩ | ⟨_, _, rfl⟩
  · exact A
  · exact alternates_of_fresh rfl hv rfl

theorem Alternates.kept_by_advanceUnlessFault : Alternates (advanceUnlessFault s) := by
  rcases advanceUnlessFault_cases s with ⟨_, e⟩ | ⟨_, e⟩ <;> rw [e] <;> exact A

end

/-- A transition of either device keeps the alternation. -/
theorem DeviceStep.keeps_alternates {s t : State} (hd : DeviceStep s t) (A : Alternates s) :
    Alternates t := by
  cases hd with
  | pop hi hv => exact A.kept_by_handOver hv
  | issued h hs => exact Alternates.kept_by_hold (s := { s with issuing := hs }) A h.level h.dur
  | request w ws t hi hf hn ha hq hr ht =>
    have A' : Alternates { s with hreqs := ws } := A
    rcases exec_decodeHreq_cases ht with ⟨lv, d, rfl⟩ | rfl | rfl
    · exact A'.kept_by_hold lv d
    · exact A'.kept_by_finish
    · exact A'.kept_by_illegal
  | sequence i u hi hf hn ha hp hg hr ht =>
    rcases exec_prog_cases hg ht with ⟨lv, d, rfl⟩ | rfl
    · exact (A.kept_by_hold lv d).kept_by_advanceUnlessFault
    · exact A.kept_by_finish.kept_by_advanceUnlessFault
  | command w n t hi hf hn ha hc hw ht =>
    exact Alternates.kept_by_command (s := { s with cmdOffers := [], freeCount := n }) A hc ht

/-- Settles O54: reset loads a fresh coalescer with nothing emitted; the host's lines and a composite run
by itself leave the coalescer, the output register and the record; each transition of the device keeps
the alternation. -/
theorem stepKeepsLevelInv : Obligations.StepKeepsLevelInv := by
  intro s t hs h
  rcases step_cases h with ⟨_, rfl⟩ | ⟨_, _, _, _, _, rfl⟩ | ⟨i, as, hp, he⟩ | ⟨as, hd⟩
  · exact (levelInv_iff _).mpr fun _ => alternates_of_fresh rfl rfl rfl
  · exact hs
  · rcases exec_performable_cases (s := { s with script := as }) hp he with
      rfl | ⟨_, rfl⟩ | ⟨_, rfl⟩ <;> exact hs
  · exact (levelInv_iff _).mpr fun _ => hd.keeps_alternates (hs hd.initialised)

/-! ### The command port (R64)

Replacing what the host drives on the command port commutes with every operation, since none reads the
port; only the block's turn does, and it looks there outside a run alone. -/

/-- The state with these words driven on the command port instead. -/
def withOffers (ws : List CmdWord) (s : State) : State := { s with cmdOffers := ws }

/-- The same for the state an outcome answers. -/
def outcomeWithOffers (ws : List CmdWord) :
    Host.Outcome State Fault Refusal → Host.Outcome State Fault Refusal
  | .next t => .next (withOffers ws t)
  | .fault f => .fault f
  | .refused r => .refused r

/-- The same for the state an activity starts from. -/
def Activity.withOffers (ws : List CmdWord) : Activity → Activity
  | .settle t => .settle (Machine.withOffers ws t)
  | .run i t => .run i (Machine.withOffers ws t)
  | .sequence i t => .sequence i (Machine.withOffers ws t)
  | .halt c => .halt c
  | .refuse r => .refuse r

section
variable (ws : List CmdWord) (s : State)

@[simp] theorem withOffers_pkx : (withOffers ws s).pkx = s.pkx := rfl
@[simp] theorem withOffers_pky : (withOffers ws s).pky = s.pky := rfl
@[simp] theorem withOffers_sq : (withOffers ws s).sq = s.sq := rfl
@[simp] theorem withOffers_fault : (withOffers ws s).fault = s.fault := rfl
@[simp] theorem withOffers_out : (withOffers ws s).out = s.out := rfl
@[simp] theorem withOffers_outReady : (withOffers ws s).outReady = s.outReady := rfl
@[simp] theorem withOffers_alone : (withOffers ws s).alone = s.alone := rfl
@[simp] theorem withOffers_initialised : (withOffers ws s).initialised = s.initialised := rfl
@[simp] theorem withOffers_issuing : (withOffers ws s).issuing = s.issuing := rfl

theorem requestReady_withOffers (i : Instr) :
    requestReady i (withOffers ws s) = requestReady i s := rfl

theorem coalescerHold_withOffers (lv : Level) (d : Dur) :
    coalescerHold lv d (withOffers ws s) = withOffers ws (coalescerHold lv d s) := by
  simp only [coalescerHold, apply_ite (withOffers ws)]
  rfl

theorem coalescerFinish_withOffers :
    coalescerFinish (withOffers ws s) = withOffers ws (coalescerFinish s) := by
  simp only [coalescerFinish, apply_ite (withOffers ws)]
  rfl

theorem coalescerIllegal_withOffers :
    coalescerIllegal (withOffers ws s) = withOffers ws (coalescerIllegal s) := by
  simp only [coalescerIllegal, apply_ite (withOffers ws)]
  rfl

theorem issueHolds_withOffers (hs : List Hold) :
    issueHolds hs (withOffers ws s) = withOffers ws (issueHolds hs s) := by
  simp only [issueHolds, apply_ite (withOffers ws)]
  rfl

theorem evaluate_withOffers (r : OpResult) :
    evaluate r (withOffers ws s) = withOffers ws (evaluate r s) := by
  simp only [evaluate, apply_ite (withOffers ws)]
  rfl

theorem popWord_withOffers : popWord (withOffers ws s) = withOffers ws (popWord s) := by
  simp only [popWord, apply_ite (withOffers ws)]
  rfl

theorem takeCommand_withOffers {f : State → State}
    (hf : f (withOffers ws s) = withOffers ws (f s)) :
    takeCommand f (withOffers ws s) = withOffers ws (takeCommand f s) := by
  simp only [takeCommand, apply_ite (withOffers ws), hf]
  rfl

theorem whenReset_withOffers (t : State) :
    whenReset (withOffers ws s) (withOffers ws t) = outcomeWithOffers ws (whenReset s t) := by
  simp only [whenReset, apply_ite (outcomeWithOffers ws)]
  rfl

/-- No operation's meaning reads or writes the command port. -/
theorem exec_withOffers (i : Instr) :
    exec i (withOffers ws s) = outcomeWithOffers ws (exec i s) := by
  have accepts : ∀ (t : Byte) (p : Bool) (x y : Payload),
      takeCommand (if validTemp t then startRun p x y else reject .tempRange) (withOffers ws s) =
        withOffers ws
          (takeCommand (if validTemp t then startRun p x y else reject .tempRange) s) :=
    fun t p x y => takeCommand_withOffers ws s (by split <;> rfl)
  have rejects : ∀ c, takeCommand (reject c) (withOffers ws s) =
      withOffers ws (takeCommand (reject c) s) := fun c => takeCommand_withOffers ws s rfl
  cases i with
  | reset => rfl
  | _ =>
    simp only [exec_encodePowerOn, exec_encodePowerOff, exec_rejectReserved, exec_rejectBadMode,
      exec_rejectTempRange, exec_hold, exec_finish, exec_illegalHreq, exec_leadIn, exec_bitOne,
      exec_bitZero, exec_stop, exec_encodeByte, exec_encodePair, exec_encodeFrame, exec_validate,
      exec_grey, exec_pack, exec_pop, accepts, rejects, coalescerHold_withOffers,
      coalescerFinish_withOffers, coalescerIllegal_withOffers, issueHolds_withOffers,
      evaluate_withOffers, popWord_withOffers, whenReset_withOffers]

theorem stall_withOffers : stall (withOffers ws s) = (stall s).withOffers ws := by
  simp only [stall, apply_ite (Activity.withOffers ws)]
  rfl

theorem advanceUnlessFault_withOffers :
    advanceUnlessFault (withOffers ws s) = withOffers ws (advanceUnlessFault s) := by
  simp only [advanceUnlessFault, apply_ite (withOffers ws)]
  rfl

end

/-- A step that starts the same activity answers the same, but for the port. -/
theorem step_withOffers_of_activity {ws : List CmdWord} {s : State}
    (h : activity (withOffers ws s) = (activity s).withOffers ws) :
    step (withOffers ws s) = outcomeWithOffers ws (step s) := by
  unfold step
  rw [h]
  cases activity s with
  | settle t => rfl
  | run i t => exact exec_withOffers ws t i
  | sequence i t =>
    simp only [Activity.withOffers, exec_withOffers]
    cases exec i t with
    | next u => exact congrArg Host.Outcome.next (advanceUnlessFault_withOffers ws u)
    | fault f => rfl
    | refused r => rfl
  | halt c => rfl
  | refuse r => rfl

/-- In a run the block's turn is the sequencer's. -/
theorem blockTurn_withOffers (ws : List CmdWord) {s : State} (hp : running s.sq.phase = true) :
    blockTurn (withOffers ws s) = (blockTurn s).withOffers ws := by
  simp only [blockTurn, withOffers_sq, withOffers_pkx, withOffers_pky, hp, if_true]
  cases prog s.pkx s.pky s.sq.idx.toNat with
  | none => rfl
  | some i =>
    simp only [requestReady_withOffers, stall_withOffers, apply_ite (Activity.withOffers ws)]
    rfl

theorem deviceTurn_withOffers (ws : List CmdWord) {s : State} (ha : s.alone = false)
    (hp : running s.sq.phase = true) :
    deviceTurn (withOffers ws s) = (deviceTurn s).withOffers ws := by
  simp only [deviceTurn, withOffers_initialised, withOffers_out, withOffers_outReady,
    withOffers_fault, withOffers_issuing, withOffers_alone, requestReady_withOffers,
    stall_withOffers, ha, Bool.false_eq_true, if_false, blockTurn_withOffers ws hp]
  cases s.issuing with
  | nil =>
    simp only [apply_ite (Activity.withOffers ws)]
    rfl
  | cons h hs =>
    simp only [apply_ite (Activity.withOffers ws)]
    rfl

/-- Settles O33: in a run the command port has no part in which activity the step starts, and no
operation reads it. -/
theorem runIgnoresCommandPort : Obligations.RunIgnoresCommandPort := by
  intro s ws ha hp hr hs
  have same : activity (withOffers ws s) = (activity s).withOffers ws := by
    rw [activity_of_quiet hr hs, activity_of_quiet (s := withOffers ws s) hr hs,
      deviceTurn_withOffers ws ha hp]
  exact step_withOffers_of_activity same

/-! ### The elements of a byte (R52, R134) -/

theorem holdsBit_eq (bit : Bool) :
    holdsBit bit = [⟨.high, 540⟩, ⟨.low, if bit then 1620 else 540⟩] := by
  cases bit <;> rfl

/-- Settles O10: each of the eight bits, from bit 7 on, adds its two HOLDs. -/
theorem byteIsSentMsbFirst : Obligations.ByteIsSentMsbFirst := by
  refine fun b => ⟨holdsByte_length b, fun i hi => ?_⟩
  simp only [holdsByte, holdsBit_eq]
  interval_cases i <;> exact ⟨rfl, rfl⟩

/-! ### POP (R193) -/

/-- A waiting word the host is ready for goes before the device's own transitions, in any phase and also
while `fault` = 1 (R60). -/
theorem step_of_pop {s : State} (hi : s.initialised = true) (hr : s.rst = false)
    (hs : s.script = []) (hv : s.out.valid = true) (ho : s.outReady = true) :
    step s = exec .pop s := by
  have hturn : deviceTurn s = .run .pop s := by simp [deviceTurn, hi, hv, ho]
  exact step_of_run ((activity_of_quiet hr hs).trans hturn)

/-- Settles O40: POP is the hand-over, which writes the output register, the record and the counter of
free values; the record depends on whether the word is the last. -/
theorem popHandsTheWordOver : Obligations.PopHandsTheWordOver := by
  intro s hi
  have hexec : exec .pop s = .next (popWord s) := whenReset_of_initialised hi _
  refine ⟨fun hv => ?empty, fun hv => ?waiting, fun hr hs hv ho => step_of_pop hi hr hs hv ho⟩
  case empty => rw [hexec, popWord, hv]; rfl
  case waiting =>
    refine ⟨handOver s, by rw [hexec, popWord, if_pos hv], rfl, rfl, fun hl => ?_, fun hl => ?_⟩
    all_goals
      rw [handOver_received, handOver_results, hl]
      exact ⟨rfl, rfl⟩

end Sys2Proof.Machine
end

section
/-! Proofs of the statements about the encoding (30_encoding.md): the words and their fields, the codes at
the ports, and the decoder case by case. -/

namespace Sys2Proof

/-! ### A word is the word of its fields (R70, R77, R83) -/

theorem ofBool_getLsbD_eq_extractLsb' {n : Nat} (w : BitVec n) (i : Nat) :
    BitVec.ofBool (w.getLsbD i) = w.extractLsb' i 1 := by
  ext j hj
  obtain rfl : j = 0 := by omega
  simp

theorem cmdWordOf_fields (w : CmdWord) :
    cmdWordOf (cmdP w) (cmdM w) (cmdS w) (cmdZ w) (cmdT w) = w := by
  unfold cmdWordOf cmdP cmdM cmdS cmdZ cmdT
  rw [ofBool_getLsbD_eq_extractLsb']
  iterate 4 rw [BitVec.extractLsb'_append_extractLsb'_eq_extractLsb' (by rfl)]
  exact BitVec.extractLsb'_eq_self

theorem hreqWordOf_fields (w : HreqWord) :
    hreqWordOf (hreqOp w) (hreqR w) (hreqLv w) (hreqD w) = w := by
  unfold hreqWordOf hreqOp hreqR hreqLv hreqD
  rw [ofBool_getLsbD_eq_extractLsb']
  iterate 3 rw [BitVec.extractLsb'_append_extractLsb'_eq_extractLsb' (by rfl)]
  exact BitVec.extractLsb'_eq_self

/-- The word of FINISH is the word of its fields alone (R79). -/
theorem hreqWordOf_eq_finish_iff (op : BitVec 2) (r : BitVec 13) (lv : Bool) (d : Dur) :
    hreqWordOf op r lv d = 0x40000000 ↔ op = 1 ∧ r = 0 ∧ lv = false ∧ d = 0 := by
  constructor
  · intro h
    refine ⟨?_, ?_, ?_, ?_⟩
    · rw [← hreqOp_hreqWordOf op r lv d, h]; rfl
    · rw [← hreqR_hreqWordOf op r lv d, h]; rfl
    · rw [← hreqLv_hreqWordOf op r lv d, h]; rfl
    · rw [← hreqD_hreqWordOf op r lv d, h]; rfl
  · rintro ⟨rfl, rfl, rfl, rfl⟩
    rfl

/-- Bits 31:17 are `OP` and `R` side by side (R77). -/
theorem upperBits_eq_zero_iff (w : HreqWord) :
    w.extractLsb' 17 15 = 0#15 ↔ hreqOp w = 0 ∧ hreqR w = 0 := by
  have hcat : hreqOp w ++ hreqR w = w.extractLsb' 17 15 :=
    BitVec.extractLsb'_append_extractLsb'_eq_extractLsb' (by rfl)
  rw [← hcat]
  constructor
  · intro h
    constructor
    · rw [← BitVec.extractLsb'_append_eq_left (a := hreqOp w) (b := hreqR w), h]; rfl
    · rw [← BitVec.extractLsb'_append_eq_right (a := hreqOp w) (b := hreqR w), h]; rfl
  · rintro ⟨ho, hr⟩
    rw [ho, hr]
    rfl

theorem encodeOut_last_bit (o : OutWord) : (encodeOut o).getLsbD 16 = o.last := by
  simp only [encodeOut, BitVec.getLsbD_append]
  simp

theorem encodeOut_data_bits (o : OutWord) : (encodeOut o).extractLsb' 0 16 = o.data :=
  BitVec.extractLsb'_append_eq_right

/-! ### Codes at the ports (R72, R73, R78, R160) -/

theorem modePort_of_modeOfPort {c : BitVec 3} {m : Mode} (h : modeOfPort c = some m) :
    modePort m = c := by
  have hall : ∀ c : BitVec 3, ∀ m ∈ modeOfPort c, modePort m = c := by decide
  exact hall c m h

/-- The codes that name a mode are 0 to 4 (R72). -/
theorem exists_modeOfPort {c : BitVec 3} (h : c.toNat ≤ 4) : ∃ m, modeOfPort c = some m := by
  refine Option.ne_none_iff_exists'.mp fun hn => ?_
  have := (modeOfPort_eq_none c).mp hn
  omega

@[simp] theorem speedPort_speedOfPort (c : BitVec 2) : speedPort (speedOfPort c) = c := by
  revert c; decide

@[simp] theorem levelBit_levelOfBit (b : Bool) : levelBit (levelOfBit b) = b := by
  cases b <;> rfl

theorem validTemp_iff (t : Byte) : Machine.validTemp t = true ↔ 17 ≤ t.toNat ∧ t.toNat ≤ 30 := by
  rw [Machine.validTemp, Bool.and_eq_true, decide_eq_true_iff, decide_eq_true_iff]
  rfl

/-! ### The decoder, case by case -/

section
variable {w : CmdWord}

theorem decodeCmd_of_reserved (hz : cmdZ w ≠ 0) : decodeCmd w =
    .rejectReserved (cmdP w) (cmdM w) (speedOfPort (cmdS w)) (cmdZ w) (cmdT w) :=
  if_pos hz

theorem decodeCmd_of_badMode (hz : cmdZ w = 0) (hm : modeOfPort (cmdM w) = none) :
    decodeCmd w = .rejectBadMode (cmdP w) (cmdM w) (speedOfPort (cmdS w)) (cmdT w) := by
  simp [decodeCmd, hz, hm]

variable {m : Mode} (hz : cmdZ w = 0) (hm : modeOfPort (cmdM w) = some m)
include hz hm

theorem decodeCmd_of_badTemp (ht : Machine.validTemp (cmdT w) = false) :
    decodeCmd w = .rejectTempRange (cmdP w) m (speedOfPort (cmdS w)) (cmdT w) := by
  simp [decodeCmd, hz, hm, ht]

theorem decodeCmd_of_accepted (ht : Machine.validTemp (cmdT w) = true) :
    decodeCmd w = if cmdP w then .encodePowerOn m (speedOfPort (cmdS w)) (cmdT w)
      else .encodePowerOff m (speedOfPort (cmdS w)) (cmdT w) := by
  simp [decodeCmd, hz, hm, ht]

end

section
variable {w : HreqWord}

theorem decodeHreq_of_hold (h : hreqOp w = 0 ∧ hreqR w = 0) :
    decodeHreq w = .hold (levelOfBit (hreqLv w)) (hreqD w) :=
  if_pos h

theorem decodeHreq_finish : decodeHreq 0x40000000 = .finish := rfl

theorem decodeHreq_of_illegal (hh : ¬(hreqOp w = 0 ∧ hreqR w = 0)) (hf : w ≠ 0x40000000) :
    decodeHreq w = .illegalHreq (hreqOp w) (hreqR w) (hreqLv w) (hreqD w) := by
  rw [decodeHreq, if_neg hh, if_neg hf]

end

/-- An illegal request is one whose word is neither that of a HOLD nor that of FINISH (R80). -/
theorem wellFormed_illegalHreq_iff (op : BitVec 2) (r : BitVec 13) (lv : Bool) (d : Dur) :
    WellFormed (.illegalHreq op r lv d) = true ↔
      ¬(op = 0 ∧ r = 0) ∧ hreqWordOf op r lv d ≠ 0x40000000 := by
  rw [Ne, hreqWordOf_eq_finish_iff]
  simp only [WellFormed, Bool.and_eq_true, Bool.not_eq_true', Bool.and_eq_false_imp, beq_iff_eq,
    beq_eq_false_iff_ne, not_and, and_imp, ne_eq]

/-! ### Decoding after encoding -/

/-- Settles O2: the check of each constructor's well-formedness is the one that selects its case of the
decoder, and the fields of its word are its operands. -/
theorem decodeOfEncode : Obligations.DecodeOfEncode := by
  intro i w hwf he
  cases i with
  | encodePowerOn m sp t =>
    obtain rfl := Option.some.inj he
    have ht : Machine.validTemp t = true := hwf
    simp [decode, decodeCmd_of_accepted (m := m), ht]
  | encodePowerOff m sp t =>
    obtain rfl := Option.some.inj he
    have ht : Machine.validTemp t = true := hwf
    simp [decode, decodeCmd_of_accepted (m := m), ht]
  | rejectReserved p m sp z t =>
    obtain rfl := Option.some.inj he
    have hz : z ≠ 0 := bne_iff_ne.mp hwf
    rw [decode, decodeCmd_of_reserved (by rwa [cmdZ_cmdWordOf])]
    simp
  | rejectBadMode p m sp t =>
    obtain rfl := Option.some.inj he
    have hm : modeOfPort m = none := (modeOfPort_eq_none m).mpr (of_decide_eq_true hwf)
    simp [decode, decodeCmd_of_badMode, hm]
  | rejectTempRange p m sp t =>
    obtain rfl := Option.some.inj he
    have ht : Machine.validTemp t = false := by simpa [WellFormed] using hwf
    simp [decode, decodeCmd_of_badTemp (m := m), ht]
  | hold lv d =>
    obtain rfl := Option.some.inj he
    simp [decode, decodeHreq_of_hold]
  | finish =>
    obtain rfl := Option.some.inj he
    exact decodeHreq_finish
  | illegalHreq op r lv d =>
    obtain rfl := Option.some.inj he
    obtain ⟨hhold, hfinish⟩ := (wellFormed_illegalHreq_iff op r lv d).mp hwf
    rw [decode, decodeHreq_of_illegal (by simpa using hhold) hfinish]
    simp
  | _ => exact nomatch he

/-! ### Encoding after decoding -/

/-- Each case of the decoder keeps every field in an operand, and its check is the well-formedness of the
instruction it answers. -/
theorem encode_decodeCmd (w : CmdWord) :
    WellFormed (decodeCmd w) = true ∧ encode (decodeCmd w) = some (.cmd w) := by
  have hw : some (PortWord.cmd (cmdWordOf (cmdP w) (cmdM w) (speedPort (speedOfPort (cmdS w)))
      (cmdZ w) (cmdT w))) = some (.cmd w) := by
    rw [speedPort_speedOfPort, cmdWordOf_fields]
  by_cases hz : cmdZ w = 0
  case neg =>
    rw [decodeCmd_of_reserved hz]
    exact ⟨bne_iff_ne.mpr hz, hw⟩
  rw [hz] at hw
  cases hm : modeOfPort (cmdM w) with
  | none =>
    rw [decodeCmd_of_badMode hz hm]
    exact ⟨decide_eq_true ((modeOfPort_eq_none _).mp hm), hw⟩
  | some m =>
    rw [← modePort_of_modeOfPort hm] at hw
    cases ht : Machine.validTemp (cmdT w) with
    | false =>
      rw [decodeCmd_of_badTemp hz hm ht]
      exact ⟨by rw [WellFormed, ht, Bool.not_false], hw⟩
    | true =>
      rw [decodeCmd_of_accepted hz hm ht]
      cases hp : cmdP w <;> rw [hp] at hw <;> exact ⟨ht, hw⟩

theorem encode_decodeHreq (w : HreqWord) :
    WellFormed (decodeHreq w) = true ∧ encode (decodeHreq w) = some (.hreq w) := by
  have hw : some (PortWord.hreq (hreqWordOf (hreqOp w) (hreqR w) (hreqLv w) (hreqD w))) =
      some (.hreq w) := by
    rw [hreqWordOf_fields]
  by_cases hh : hreqOp w = 0 ∧ hreqR w = 0
  case pos =>
    rw [decodeHreq_of_hold hh]
    rw [hh.1, hh.2, ← levelBit_levelOfBit (hreqLv w)] at hw
    exact ⟨rfl, hw⟩
  by_cases hf : w = 0x40000000
  case pos =>
    subst hf
    exact ⟨rfl, rfl⟩
  rw [decodeHreq_of_illegal hh hf]
  exact ⟨(wellFormed_illegalHreq_iff ..).mpr ⟨hh, by rwa [hreqWordOf_fields]⟩, hw⟩

/-- Settles O3, port by port. -/
theorem encodeOfDecode : Obligations.EncodeOfDecode := by
  intro w
  cases w with
  | cmd w => exact encode_decodeCmd w
  | hreq w => exact encode_decodeHreq w

/-! ### What a word is -/

/-- Settles O5: the checks in their order, each by the decoder's case; the codes of an accepted word are
those of the mode and the speed it decodes to. -/
theorem commandWordIsExactlyOne : Obligations.CommandWordIsExactlyOne := by
  intro w
  refine ⟨fun hz => ?reserved, fun hz h5 => ?badMode, fun hz h4 ht => ?badTemp,
    fun hz h4 hlo hhi => ?accepted⟩
  case reserved => exact ⟨_, _, _, _, _, decodeCmd_of_reserved hz⟩
  case badMode => exact ⟨_, _, _, _, decodeCmd_of_badMode hz ((modeOfPort_eq_none _).mpr h5)⟩
  case badTemp =>
    obtain ⟨m, hm⟩ := exists_modeOfPort h4
    have hT : Machine.validTemp (cmdT w) = false := Bool.eq_false_iff.mpr (mt (validTemp_iff _).mp ht)
    exact ⟨_, _, _, _, decodeCmd_of_badTemp hz hm hT⟩
  case accepted =>
    obtain ⟨m, hm⟩ := exists_modeOfPort h4
    have hT : Machine.validTemp (cmdT w) = true := (validTemp_iff _).mpr ⟨hlo, hhi⟩
    exact ⟨m, speedOfPort (cmdS w), (modePort_of_modeOfPort hm).symm,
      (speedPort_speedOfPort (cmdS w)).symm, decodeCmd_of_accepted hz hm hT⟩

/-- Settles O4 by the decoder's three cases; FINISH has bit 30 set, so it is no HOLD. -/
theorem holdRequestWordIsExactlyOne : Obligations.HoldRequestWordIsExactlyOne := by
  intro w
  rw [Ne, upperBits_eq_zero_iff]
  refine ⟨decodeHreq_of_hold, ?finish, fun hh hf => ⟨_, _, _, _, decodeHreq_of_illegal hh hf⟩,
    ?apart⟩
  case finish =>
    rintro rfl
    exact decodeHreq_finish
  case apart =>
    rintro ⟨⟨hop, -⟩, rfl⟩
    exact absurd hop (by decide)

/-- Settles O6 by the two fields of the output word. -/
theorem outputWordRoundTrip : Obligations.OutputWordRoundTrip := by
  intro o
  exact ⟨by rw [decodeOut, encodeOut_last_bit, encodeOut_data_bits], encodeOut_last_bit o,
    encodeOut_data_bits o⟩

end Sys2Proof
end

section
/-! Proofs of the statements about the coalescer (40_pulse_encoder.md): what each request does, when the
device performs it, and the words a list of HOLDs is coalesced to. -/

namespace Sys2Proof.Machine

/-! ### Requests, case by case (R100 to R108)

The two cases of an open coalescer that go on, `coalescerHold_of_same` and `coalescerHold_of_other`, and
`coalescerFinish_of_open`, stand above. -/

section
variable {s : State} (hf : s.fault = false)
include hf

theorem coalescerIllegal_of_noFault : coalescerIllegal s = raiseFault .illegalReq s := by
  simp [coalescerIllegal, hf]

section
variable (hc : s.co.closed = true)
include hc

theorem coalescerHold_of_closed (lv : Level) (d : Dur) :
    coalescerHold lv d s = raiseFault .reuse s := by
  simp [coalescerHold, hf, hc]

theorem coalescerFinish_of_closed : coalescerFinish s = raiseFault .reuse s := by
  simp [coalescerFinish, hf, hc]

end

section
variable (hc : s.co.closed = false)
include hc

theorem coalescerHold_of_zero (lv : Level) : coalescerHold lv 0#16 s = s := by
  simp [coalescerHold, hf, hc]

/-- A duration that overflows the accumulator is not 0, for the accumulator itself never exceeds
0xFFFF. -/
theorem coalescerHold_of_overflow {d : Dur} (ha : s.co.acc.toNat + d.toNat > 0xFFFF) :
    coalescerHold s.co.level d s = raiseFault .overflow s := by
  have hd : d ≠ 0#16 := by
    rintro rfl
    have := s.co.acc.isLt
    simp only [BitVec.toNat_ofNat, Nat.zero_mod, Nat.add_zero] at ha
    omega
  rw [coalescerHold, if_neg (by simp [hf]), if_neg (by simp [hc]), if_neg hd, if_pos rfl, if_pos ha]

theorem coalescerHold_of_wait {lv : Level} {d : Dur} (hv : s.out.valid = true) (hd : d ≠ 0#16)
    (hl : lv ≠ s.co.level) : coalescerHold lv d s = s := by
  simp [coalescerHold, hf, hc, hv, hd, hl]

theorem coalescerFinish_of_wait (hv : s.out.valid = true) : coalescerFinish s = s := by
  simp [coalescerFinish, hf, hc, hv]

end

end

/-- Settles O16: a zero HOLD on an open coalescer is no operation. -/
theorem zeroHoldHasNoEffect : Obligations.ZeroHoldHasNoEffect := by
  intro s lv hi hf hc
  exact (whenReset_of_initialised hi _).trans
    (congrArg Host.Outcome.next (coalescerHold_of_zero hf hc lv))

/-- Settles O17: a sum that fits is the sum of the words. -/
theorem sameLevelHoldAccumulates : Obligations.SameLevelHoldAccumulates := by
  intro s d hi hf hc hd ha
  refine ⟨s.co.acc + d, BitVec.toNat_add_of_lt (by omega), ?_⟩
  rw [exec_hold, whenReset_of_initialised hi, coalescerHold_of_same hf hc hd rfl ha]
  rfl

/-- Settles O18: a HOLD of the other level, with the output register empty, emits. -/
theorem levelChangeEmits : Obligations.LevelChangeEmits := by
  intro s lv d hi hf hc hd hl hv
  rw [exec_hold, whenReset_of_initialised hi, coalescerHold_of_other hf hc hd hl hv]
  rfl

/-- Settles O19: a HOLD of the current level that does not fit faults. -/
theorem overflowFaults : Obligations.OverflowFaults := by
  intro s d hi hf hc ha
  rw [exec_hold, whenReset_of_initialised hi, coalescerHold_of_overflow hf hc ha]
  rfl

/-- Settles O20: FINISH on an open coalescer, with the output register empty, emits and closes. -/
theorem finishEmitsFinalWord : Obligations.FinishEmitsFinalWord := by
  intro s hi hf hc hv
  rw [exec_finish, whenReset_of_initialised hi, coalescerFinish_of_open hf hc hv]
  rfl

/-- Settles O21: either request on a closed coalescer faults, before anything else is looked at. -/
theorem useAfterFinishFaults : Obligations.UseAfterFinishFaults := by
  intro s lv d hi hf hc
  rw [exec_hold, exec_finish, whenReset_of_initialised hi, whenReset_of_initialised hi,
    coalescerHold_of_closed hf hc, coalescerFinish_of_closed hf hc]
  exact ⟨rfl, rfl⟩

/-- Settles O22: an illegal request faults, whatever the coalescer holds. -/
theorem illegalRequestFaults : Obligations.IllegalRequestFaults := by
  intro s op r lv d hi hf
  rw [exec_illegalHreq, whenReset_of_initialised hi, coalescerIllegal_of_noFault hf]
  rfl

/-! ### Readiness (R108, R113) -/

theorem requestReady_iff (i : Instr) (s : State) : requestReady i s = true ↔
    s.fault = false ∧ (s.out.valid = false ∨ ¬ wouldEmit i s = true) := by
  simp only [requestReady, Bool.and_eq_true, Bool.or_eq_true, Bool.not_eq_true', Bool.not_eq_true]

theorem wouldEmit_hold_iff (lv : Level) (d : Dur) (s : State) : wouldEmit (.hold lv d) s = true ↔
    d ≠ 0#16 ∧ s.co.closed = false ∧ lv ≠ s.co.level := by
  simp only [wouldEmit, Bool.and_eq_true, Bool.not_eq_true', bne_iff_ne]
  exact and_assoc.trans and_left_comm

theorem wouldEmit_finish_iff (s : State) : wouldEmit .finish s = true ↔ s.co.closed = false := by
  simp only [wouldEmit, Bool.not_eq_true']

theorem wouldEmit_illegalHreq (op : BitVec 2) (r : BitVec 13) (lv : Bool) (d : Dur) (s : State) :
    wouldEmit (.illegalHreq op r lv d) s = false := rfl

theorem requestReady_hold_iff (s : State) (lv : Level) (d : Dur) :
    requestReady (.hold lv d) s = true ↔ s.fault = false ∧ (s.out.valid = false ∨
      ¬(d ≠ 0#16 ∧ s.co.closed = false ∧ lv ≠ s.co.level)) := by
  rw [requestReady_iff, wouldEmit_hold_iff]

theorem requestReady_finish_iff (s : State) : requestReady .finish s = true ↔
    s.fault = false ∧ (s.out.valid = false ∨ s.co.closed = true) := by
  rw [requestReady_iff, wouldEmit_finish_iff, Bool.not_eq_false]

/-- The words that emit, by their bits: a HOLD of nonzero duration and other level, and FINISH, and only
on an open coalescer (R102, R104). -/
theorem wouldEmit_decodeHreq_iff (w : HreqWord) (s : State) : wouldEmit (decodeHreq w) s = true ↔
    w.extractLsb' 17 15 = 0#15 ∧ w.extractLsb' 0 16 ≠ 0#16 ∧ s.co.closed = false ∧
        (if w.getLsbD 16 then Level.high else Level.low) ≠ s.co.level ∨
      w = 0x40000000#32 ∧ s.co.closed = false := by
  by_cases hh : hreqOp w = 0 ∧ hreqR w = 0
  · have hne : w ≠ 0x40000000#32 := by
      rintro rfl
      exact absurd hh.1 (by decide)
    rw [decodeHreq_of_hold hh, wouldEmit_hold_iff, upperBits_eq_zero_iff]
    simp only [hh, hne, and_self, true_and, false_and, or_false]
    rfl
  rw [upperBits_eq_zero_iff]
  by_cases hf : w = 0x40000000#32
  · subst hf
    simp only [hh, false_and, true_and, false_or]
    exact wouldEmit_finish_iff s
  · simp only [decodeHreq_of_illegal hh hf, wouldEmit_illegalHreq, hh, hf, false_and, or_self,
      Bool.false_eq_true]

theorem hreqReady_iff (s : State) (w : HreqWord) : hreqReady w s = true ↔
    s.fault = false ∧ (s.out.valid = false ∨
      ¬(w.extractLsb' 17 15 = 0#15 ∧ w.extractLsb' 0 16 ≠ 0#16 ∧ s.co.closed = false ∧
          (if w.getLsbD 16 then Level.high else Level.low) ≠ s.co.level ∨
        w = 0x40000000#32 ∧ s.co.closed = false)) := by
  rw [hreqReady, requestReady_iff, wouldEmit_decodeHreq_iff]

/-! ### The device's own turn -/

theorem step_of_sequence {s t u : State} {i : Instr} (h : activity s = .sequence i t)
    (he : exec i t = .next u) : step s = .next (advanceUnlessFault u) := by
  simp only [step, h, he]

theorem step_of_run_or_settle {s t : State} {i : Instr} {b : Bool}
    (h : activity s = if b then .run i t else .settle s) :
    (b = true → step s = exec i t) ∧ (b = false → step s = .next s) :=
  ⟨fun hb => step_of_run (by rw [h, if_pos hb]),
    fun hb => step_of_settle (by rw [h, if_neg (by simp [hb])])⟩

/-- The host takes a waiting word it is ready for (R193). -/
theorem step_handOver {s : State} (hi : s.initialised = true) (hr : s.rst = false)
    (hs : s.script = []) (hv : s.out.valid = true) (ho : s.outReady = true) :
    step s = .next (handOver s) := by
  rw [step_of_pop hi hr hs hv ho, exec_pop, whenReset_of_initialised hi, popWord, if_pos hv]

section
variable {s : State} (M : DeviceMoves s)
include M

theorem DeviceMoves.stall_eq_settle : stall s = .settle s := by
  simp [stall, M.noFault]

/-- A HOLD of a composite goes before everything but a pop. -/
theorem DeviceMoves.activity_of_issuing {h : Hold} {hs : List Hold} (hq : s.issuing = h :: hs) :
    activity s = if requestReady (.hold h.level h.dur) s then
      .run (.hold h.level h.dur) { s with issuing := hs } else .settle s := by
  rw [activity_of_quiet M.noRst M.noScript, ← M.stall_eq_settle]
  simp [deviceTurn, M.isReset, M.noPop, M.noFault, hq]

theorem DeviceMoves.activity_of_port {w : HreqWord} {ws : List HreqWord} (ha : s.alone = true)
    (hn : s.issuing = []) (hq : s.hreqs = w :: ws) :
    activity s = if hreqReady w s then .run (decodeHreq w) { s with hreqs := ws }
      else .settle s := by
  rw [activity_of_quiet M.noRst M.noScript, ← M.stall_eq_settle]
  simp [deviceTurn, portTurn, M.isReset, M.noPop, M.noFault, ha, hn, hq]

theorem DeviceMoves.activity_of_run {i : Instr} (ha : s.alone = false) (hn : s.issuing = [])
    (hp : running s.sq.phase = true) (hg : prog s.pkx s.pky s.sq.idx.toNat = some i) :
    activity s = if requestReady i s then .sequence i s else .settle s := by
  rw [activity_of_quiet M.noRst M.noScript, ← M.stall_eq_settle]
  simp [deviceTurn, blockTurn, M.isReset, M.noPop, M.noFault, ha, hn, hp, hg]

/-- A HOLD of a composite is performed when the coalescer can, and waits otherwise. -/
theorem DeviceMoves.step_of_issuing {h : Hold} {hs : List Hold} (hq : s.issuing = h :: hs) :
    (requestReady (.hold h.level h.dur) s = true →
      step s = exec (.hold h.level h.dur) { s with issuing := hs }) ∧
    (requestReady (.hold h.level h.dur) s = false → step s = .next s) :=
  step_of_run_or_settle (M.activity_of_issuing hq)

/-- A word on the request port is taken when `hreq_ready` = 1, and waits otherwise. -/
theorem DeviceMoves.step_of_port {w : HreqWord} {ws : List HreqWord} (ha : s.alone = true)
    (hn : s.issuing = []) (hq : s.hreqs = w :: ws) :
    (hreqReady w s = true → step s = exec (decodeHreq w) { s with hreqs := ws }) ∧
    (hreqReady w s = false → step s = .next s) :=
  step_of_run_or_settle (M.activity_of_port ha hn hq)

/-- The sequencer's request is performed and its update follows, or it waits (R189). -/
theorem DeviceMoves.step_of_run {i : Instr} (ha : s.alone = false) (hn : s.issuing = [])
    (hp : running s.sq.phase = true) (hg : prog s.pkx s.pky s.sq.idx.toNat = some i) :
    (requestReady i s = true → ∀ u, exec i s = .next u → step s = .next (advanceUnlessFault u)) ∧
    (requestReady i s = false → step s = .next s) := by
  have hact := M.activity_of_run ha hn hp hg
  exact ⟨fun hr u hu => step_of_sequence (by rw [hact, if_pos hr]) hu,
    fun hr => step_of_settle (by rw [hact, if_neg (by simp [hr])])⟩

end

/-- Settles O37: readiness by the HOLDs that emit, and the step by the turn of a composite's queue. -/
theorem issuedHoldIsPerformed : Obligations.IssuedHoldIsPerformed :=
  ⟨requestReady_hold_iff, fun _ _ _ M hq => M.step_of_issuing hq⟩

/-- Settles O49: readiness by the words that emit, and the step by the turn of the request port. -/
theorem stepRunsRequest : Obligations.StepRunsRequest :=
  ⟨hreqReady_iff, fun _ _ _ M ha hn hq => M.step_of_port ha hn hq⟩

/-- Settles O23: the request is a wait of its operation, and a word that would emit is not ready while
another one waits. -/
theorem emittingRequestWaits : Obligations.EmittingRequestWaits := by
  refine ⟨fun s lv d hi hf hc hv hd hl => ?hold, fun s hi hf hc hv => ?finish,
    fun s h ws M hc hv ha hn hq hd hl => ?port⟩
  case hold => rw [exec_hold, whenReset_of_initialised hi, coalescerHold_of_wait hf hc hv hd hl]
  case finish => rw [exec_finish, whenReset_of_initialised hi, coalescerFinish_of_wait hf hc hv]
  case port =>
    have hemits : wouldEmit (.hold h.level h.dur) s = true :=
      (wouldEmit_hold_iff _ _ _).mpr ⟨hd, hc, hl⟩
    have hwaits : hreqReady (holdWord h) s = false := by
      simp [hreqReady, requestReady, hv, hemits]
    exact (M.step_of_port ha hn hq).2 hwaits

/-! ### The sequencer's step (R189, R190) -/

/-- Every request of the hold program is a HOLD or FINISH: on a block that has been reset it has a next
state, with the sequencer's registers as they were. -/
theorem exec_prog {x y : Payload} {k : Nat} {i : Instr} {s : State} (hi : s.initialised = true)
    (hg : prog x y k = some i) : ∃ u, exec i s = .next u ∧ u.sq = s.sq := by
  rcases prog_eq_some hg with ⟨-, rfl⟩ | ⟨-, g, -, rfl⟩
  · exact ⟨_, whenReset_of_initialised hi _, coalescerFinish_sq s⟩
  · exact ⟨_, whenReset_of_initialised hi _, coalescerHold_sq _ _ s⟩

theorem advanceUnlessFault_of_fault {s : State} (hf : s.fault = true) : advanceUnlessFault s = s :=
  if_pos hf

/-- `phase_after(n)` up to the end of the program (R190). -/
theorem phaseAfter_ranges (n : Nat) :
    (n ≤ 99 → phaseAfter n = .payloadComputed) ∧
    (100 ≤ n → n ≤ 197 → phaseAfter n = .frame1Emitted) ∧
    (n = 198 → phaseAfter n = .frame2Emitted) ∧
    (n = 199 → phaseAfter n = .finished) := by
  refine ⟨fun h => if_pos h, fun h h' => ?_, ?_, ?_⟩
  · rw [phaseAfter, if_neg (by omega), if_pos h']
  · rintro rfl; rfl
  · rintro rfl; rfl

/-- Settles O50: the request of the index is performed with the sequencer's registers kept, and then
the sequencer's own update follows, unless the request faulted. -/
theorem sequencerIssuesItsProgram : Obligations.SequencerIssuesItsProgram := by
  refine ⟨requestReady_hold_iff, requestReady_finish_iff, fun s i M ha hn hp hg => ?_⟩
  obtain ⟨hperforms, hwaits⟩ := M.step_of_run ha hn hp hg
  refine ⟨hwaits, fun hr => ?_⟩
  obtain ⟨u, hu, hsq⟩ := exec_prog M.isReset hg
  have hstep := hperforms hr u hu
  refine ⟨u, hu, fun hf => ?faulted, fun hf => ⟨phaseAfter (s.sq.idx.toNat + 1), ?advanced,
    phaseAfter_ranges _⟩⟩
  case faulted => rw [hstep, advanceUnlessFault_of_fault hf]
  case advanced => rw [hstep, advanceUnlessFault_of_noFault hf, advance, hsq]

end Sys2Proof.Machine
end

section
/-! Proofs of the statements about whole lists of HOLDs (40_pulse_encoder.md, 41_protocol_elements.md): the
fold of R112, and the coalescer on its own that performs them while the host drains it. -/

namespace Sys2Proof.Machine

/-! ### The fold of R112, one HOLD at a time

One unfolding of the fold is three functions of the pending run and the HOLD: whether it overflows,
the next pending run (`pendingAfter`, above), and the word emitted. -/

/-- A HOLD that the pending run cannot take (R103). -/
def Overflows (p : Level × Nat) (h : Hold) : Prop :=
  h.dur ≠ 0#16 ∧ h.level = p.1 ∧ p.2 + h.dur.toNat > 0xFFFF

/-- The word a HOLD emits, if any: the pending run, when the level changes (R102). -/
def wordsOf (p : Level × Nat) (h : Hold) : List Nat :=
  if h.dur = 0#16 ∨ h.level = p.1 then [] else [p.2]

section
variable {p : Level × Nat} {h : Hold}

theorem pendingAfter_of_zero (hd : h.dur = 0#16) : pendingAfter p h = p := if_pos hd

theorem pendingAfter_of_same (hd : h.dur ≠ 0#16) (hl : h.level = p.1) :
    pendingAfter p h = (p.1, p.2 + h.dur.toNat) := by
  rw [pendingAfter, if_neg hd, if_pos hl]

theorem pendingAfter_of_other (hd : h.dur ≠ 0#16) (hl : h.level ≠ p.1) :
    pendingAfter p h = (h.level, h.dur.toNat) := by
  rw [pendingAfter, if_neg hd, if_neg hl]

theorem wordsOf_of_zero (hd : h.dur = 0#16) : wordsOf p h = [] := if_pos (.inl hd)

theorem wordsOf_of_same (hl : h.level = p.1) : wordsOf p h = [] := if_pos (.inr hl)

theorem wordsOf_of_other (hd : h.dur ≠ 0#16) (hl : h.level ≠ p.1) : wordsOf p h = [p.2] :=
  if_neg (by simp [hd, hl])

/-- A nonzero HOLD leaves its own level pending (R25). -/
theorem pendingAfter_level (hd : h.dur ≠ 0#16) : (pendingAfter p h).1 = h.level := by
  by_cases hl : h.level = p.1
  · rw [pendingAfter_of_same hd hl, hl]
  · rw [pendingAfter_of_other hd hl]

/-- `coalesceFrom` over a pending run given as a pair. -/
def foldFrom (p : Level × Nat) (rs : List Hold) (out : List Nat) : Except (List Nat) (List Nat) :=
  coalesceFrom p.1 p.2 rs out

theorem coalesce_eq_foldFrom (rs : List Hold) : coalesce rs = foldFrom (.high, 0) rs [] := rfl

@[simp] theorem foldFrom_nil (p : Level × Nat) (out : List Nat) :
    foldFrom p [] out = .ok (out ++ [p.2]) := rfl

theorem foldFrom_of_overflows (hov : Overflows p h) (rs : List Hold) (out : List Nat) :
    foldFrom p (h :: rs) out = .error out := by
  obtain ⟨hd, hl, ha⟩ := hov
  rw [foldFrom, coalesceFrom, if_neg hd, if_pos hl, if_pos ha]

theorem foldFrom_of_fits (hfits : ¬ Overflows p h) (rs : List Hold) (out : List Nat) :
    foldFrom p (h :: rs) out = foldFrom (pendingAfter p h) rs (out ++ wordsOf p h) := by
  rw [foldFrom, coalesceFrom]
  by_cases hd : h.dur = 0#16
  · rw [if_pos hd, pendingAfter_of_zero hd, wordsOf_of_zero hd, List.append_nil]; rfl
  rw [if_neg hd]
  by_cases hl : h.level = p.1
  · have ha : ¬ p.2 + h.dur.toNat > 0xFFFF := fun ha => hfits ⟨hd, hl, ha⟩
    rw [if_pos hl, if_neg ha, pendingAfter_of_same hd hl, wordsOf_of_same hl, List.append_nil]
    rfl
  · rw [if_neg hl, pendingAfter_of_other hd hl, wordsOf_of_other hd hl]; rfl

end

/-! ### Zero HOLDs and runs (R110, R111) -/

theorem foldFrom_zero_cons (p : Level × Nat) (lv : Level) (rs : List Hold) (out : List Nat) :
    foldFrom p (⟨lv, 0⟩ :: rs) out = foldFrom p rs out := by
  rw [foldFrom_of_fits (fun hov => hov.1 rfl), pendingAfter_of_zero rfl, wordsOf_of_zero rfl,
    List.append_nil]

theorem foldFrom_append_zero (xs ys : List Hold) (lv : Level) (p : Level × Nat) (out : List Nat) :
    foldFrom p (xs ++ ⟨lv, 0⟩ :: ys) out = foldFrom p (xs ++ ys) out := by
  induction xs generalizing p out with
  | nil => exact foldFrom_zero_cons p lv ys out
  | cons h xs ih =>
    rw [List.cons_append, List.cons_append]
    by_cases hov : Overflows p h
    · rw [foldFrom_of_overflows hov, foldFrom_of_overflows hov]
    · rw [foldFrom_of_fits hov, foldFrom_of_fits hov, ih]

/-- Settles O24: the HOLDs before the inserted one are folded alike, and it changes nothing itself. -/
theorem zeroHoldsDoNotChangeOutput : Obligations.ZeroHoldsDoNotChangeOutput :=
  fun xs ys lv => foldFrom_append_zero xs ys lv (.high, 0) []

/-- HOLDs of the pending level are added up, as long as the sum fits. -/
theorem foldFrom_same_level (lv : Level) (ds : List Dur) (rs : List Hold) (out : List Nat)
    {acc : Nat} (hsum : acc + (ds.map BitVec.toNat).sum ≤ 0xFFFF) :
    foldFrom (lv, acc) (ds.map (⟨lv, ·⟩) ++ rs) out =
      foldFrom (lv, acc + (ds.map BitVec.toNat).sum) rs out := by
  induction ds generalizing acc with
  | nil => rfl
  | cons d ds ih =>
    rw [List.map_cons, List.sum_cons, ← Nat.add_assoc] at hsum
    rw [List.map_cons, List.map_cons, List.sum_cons, List.cons_append, ← Nat.add_assoc]
    by_cases hd : d = 0
    · subst hd
      rw [foldFrom_zero_cons]
      exact ih (by simpa using hsum)
    · have hfits : ¬ Overflows (lv, acc) ⟨lv, d⟩ := fun ⟨_, _, ha⟩ => by
        dsimp only at ha
        omega
      rw [foldFrom_of_fits hfits, pendingAfter_of_same hd rfl, wordsOf_of_same rfl, List.append_nil]
      exact ih hsum

/-- A run of the other level ends the pending one, which is emitted, and is pending itself. -/
theorem foldFrom_other_level {lv : Level} {p : Level × Nat} (hlv : lv ≠ p.1) {ds : List Dur}
    (hne : ds ≠ []) (hnz : ∀ d ∈ ds, d ≠ 0#16) (hsum : (ds.map BitVec.toNat).sum ≤ 0xFFFF)
    (rs : List Hold) (out : List Nat) :
    foldFrom p (ds.map (⟨lv, ·⟩) ++ rs) out =
      foldFrom (lv, (ds.map BitVec.toNat).sum) rs (out ++ [p.2]) := by
  cases ds with
  | nil => exact absurd rfl hne
  | cons d ds =>
    have hd : d ≠ 0#16 := hnz d List.mem_cons_self
    rw [List.map_cons, List.cons_append, foldFrom_of_fits (fun hov => hlv hov.2.1),
      pendingAfter_of_other hd hlv, wordsOf_of_other hd hlv]
    exact foldFrom_same_level lv ds rs _ (by simpa using hsum)

/-- The HOLDs of these runs, alternating in level from that of position `k`. -/
def runsAt (k : Nat) (runs : List (List Dur)) : List Hold :=
  (runs.mapIdx fun i ds => ds.map fun d => (⟨levelAt (k + i), d⟩ : Hold)).flatten

theorem runsAt_cons (k : Nat) (ds : List Dur) (runs : List (List Dur)) :
    runsAt k (ds :: runs) = ds.map (⟨levelAt k, ·⟩) ++ runsAt (k + 1) runs := by
  simp only [runsAt, List.mapIdx_cons, List.flatten_cons, Nat.add_zero, Nat.add_assoc,
    Nat.add_comm 1]

theorem foldFrom_runsAt (runs : List (List Dur)) (k acc : Nat) (out : List Nat)
    (hruns : ∀ ds ∈ runs, ds ≠ [] ∧ (∀ d ∈ ds, d ≠ 0#16) ∧ (ds.map BitVec.toNat).sum ≤ 0xFFFF) :
    foldFrom (levelAt k, acc) (runsAt (k + 1) runs) out =
      .ok (out ++ acc :: runs.map fun ds => (ds.map BitVec.toNat).sum) := by
  induction runs generalizing k acc out with
  | nil => rfl
  | cons ds runs ih =>
    obtain ⟨⟨hne, hnz, hsum⟩, hruns⟩ := List.forall_mem_cons.mp hruns
    rw [runsAt_cons, foldFrom_other_level (levelAt_succ_ne k) hne hnz hsum, ih _ _ _ hruns,
      List.append_assoc, List.map_cons]
    rfl

/-- Settles O25: the first run is added to the fresh accumulator, and each later one ends the run before
it. -/
theorem runsCoalesceToTheirSums : Obligations.RunsCoalesceToTheirSums := by
  intro first more hfirst hmore
  have hholds : ((first :: more).mapIdx fun k ds =>
      ds.map fun d => (⟨levelAt k, d⟩ : Hold)).flatten = runsAt 0 (first :: more) := by
    simp only [runsAt, Nat.zero_add]
  rw [hholds, runsAt_cons, coalesce_eq_foldFrom]
  calc foldFrom (.high, 0) (first.map (⟨levelAt 0, ·⟩) ++ runsAt 1 more) []
      = foldFrom (levelAt 0, 0 + (first.map BitVec.toNat).sum) (runsAt 1 more) [] :=
        foldFrom_same_level _ _ _ _ (by omega)
    _ = _ := by rw [foldFrom_runsAt more 0 _ _ hmore, Nat.zero_add]; rfl

/-! ### One HOLD on the machine -/

/-- The words of these durations, none of them final (R102). -/
def nonFinal (ds : List Nat) : List OutWord := ds.map fun d => ⟨BitVec.ofNat 16 d, false⟩

theorem nonFinal_append (ds es : List Nat) : nonFinal (ds ++ es) = nonFinal ds ++ nonFinal es :=
  List.map_append

theorem nonFinal_toNat (d : Dur) : nonFinal [d.toNat] = [⟨d, false⟩] := by
  simp [nonFinal]

theorem markLast_concat (ds : List Nat) (d : Dur) :
    markLast (ds ++ [d.toNat]) = nonFinal ds ++ [⟨d, true⟩] := by
  have hopen : ds.mapIdx (fun k e => (⟨BitVec.ofNat 16 e, k == ds.length⟩ : OutWord)) =
      nonFinal ds := by
    refine List.ext_getElem (by simp [nonFinal]) fun k hk _ => ?_
    have hne : k ≠ ds.length := by simp only [List.length_mapIdx] at hk; omega
    simp [nonFinal, hne]
  simp [markLast, List.mapIdx_append, hopen]

/-- A HOLD that fits, on an open coalescer with the output register empty: the pending run is the fold's
next one, and the output register takes the word the fold emits, if there is one. -/
theorem coalescerHold_of_fits {s : State} {h : Hold} (hf : s.fault = false)
    (hc : s.co.closed = false) (hv : s.out.valid = false)
    (hfits : ¬ Overflows (pendingOf s.co) h) :
    ∃ c, c.closed = false ∧ pendingOf c = pendingAfter (pendingOf s.co) h ∧
      ((wordsOf (pendingOf s.co) h = [] ∧ coalescerHold h.level h.dur s = setCo c s) ∨
        (wordsOf (pendingOf s.co) h = [s.co.acc.toNat] ∧
          coalescerHold h.level h.dur s = setCo c (emit s.co.acc false s))) := by
  by_cases hd : h.dur = 0#16
  · refine ⟨s.co, hc, (pendingAfter_of_zero hd).symm, .inl ⟨wordsOf_of_zero hd, ?_⟩⟩
    rw [hd]
    exact coalescerHold_of_zero hf hc h.level
  by_cases hl : h.level = s.co.level
  · have ha : s.co.acc.toNat + h.dur.toNat ≤ 0xFFFF :=
      Nat.le_of_not_gt fun ha => hfits ⟨hd, hl, ha⟩
    refine ⟨⟨s.co.level, s.co.acc + h.dur, false⟩, rfl, ?_,
      .inl ⟨wordsOf_of_same hl, coalescerHold_of_same hf hc hd hl ha⟩⟩
    rw [pendingAfter_of_same hd hl, pendingOf, BitVec.toNat_add_of_lt (by omega)]
    rfl
  · exact ⟨⟨h.level, h.dur, false⟩, rfl, (pendingAfter_of_other hd hl).symm,
      .inr ⟨wordsOf_of_other hd hl, coalescerHold_of_other hf hc hd hl hv⟩⟩

/-! ### A drained coalescer on its own -/

/-- Between two HOLDs of a coalescer on its own that the host drains: since the state `c` the words `ds`
were delivered and no run ended, and the HOLDs `hs` are to come, those of a composite before those of the
port (log 10), then the port's words `ws`. `DrainedOpen` above follows the pending run alone; this follows
the words as well. -/
structure Draining (c : State) (ds : List Nat) (hs : List Hold) (ws : List HreqWord) (s : State) :
    Prop where
  moves     : DeviceMoves s
  isAlone   : s.alone = true
  isOpen    : s.co.closed = false
  empty     : s.out.valid = false
  drained   : s.outReady = true
  delivered : s.received = nonFinal ds
  sameEnded : s.results = c.results
  sameErr   : s.err = c.err
  toCome    : ∃ rs, hs = s.issuing ++ rs ∧ s.hreqs = rs.map holdWord ++ ws

/-- The coalescer faulted at a HOLD that overflows, after the words `ds` (R103). -/
structure OverflowedAfter (c : State) (ds : List Nat) (s : State) : Prop where
  faulted   : s.fault = true
  code      : s.err = .overflow
  sameEnded : s.results = c.results
  emitted   : emittedWords s = nonFinal ds

section
variable {c s : State} {ds : List Nat} {h : Hold} {hs : List Hold} {ws : List HreqWord}

/-- With no HOLD to come, the composite's queue is empty and the port holds the words after it. -/
theorem Draining.queues_of_nil (D : Draining c ds [] ws s) : s.issuing = [] ∧ s.hreqs = ws := by
  obtain ⟨rs, hrs, hq⟩ := D.toCome
  obtain ⟨hi, rfl⟩ := List.append_eq_nil_iff.mp hrs.symm
  exact ⟨hi, hq⟩

/-- With the output register empty the next HOLD is performed, whether a composite or the port brings
it. -/
theorem Draining.step_hold (D : Draining c ds (h :: hs) ws s) :
    ∃ u, step s = .next (coalescerHold h.level h.dur u) ∧ Draining c ds hs ws u ∧ u.co = s.co := by
  have hready : requestReady (.hold h.level h.dur) s = true :=
    (requestReady_hold_iff _ _ _).mpr ⟨D.moves.noFault, .inl D.empty⟩
  obtain ⟨M, ha, hc, hv, ho, hw, hr, he, rs, hhs, hq⟩ := D
  have M' : ∀ i q, DeviceMoves { s with issuing := i, hreqs := q } := fun _ _ =>
    ⟨M.isReset, M.noFault, M.noRst, M.noScript, M.noPop⟩
  cases hi : s.issuing with
  | cons g gs =>
    rw [hi, List.cons_append, List.cons.injEq] at hhs
    obtain ⟨rfl, rfl⟩ := hhs
    refine ⟨{ s with issuing := gs }, ?_,
      ⟨M' gs s.hreqs, ha, hc, hv, ho, hw, hr, he, rs, rfl, hq⟩, rfl⟩
    rw [(M.step_of_issuing hi).1 hready, exec_hold, whenReset_of_initialised (by exact M.isReset)]
  | nil =>
    rw [hi, List.nil_append] at hhs
    subst hhs
    rw [List.map_cons, List.cons_append] at hq
    refine ⟨{ s with hreqs := hs.map holdWord ++ ws }, ?_,
      ⟨M' s.issuing _, ha, hc, hv, ho, hw, hr, he, hs, by simp [hi], rfl⟩, rfl⟩
    have hport : hreqReady (holdWord h) s = true := by rwa [hreqReady, decodeHreq_holdWord]
    rw [(M.step_of_port ha hi hq).1 hport, decodeHreq_holdWord, exec_hold,
      whenReset_of_initialised (by exact M.isReset)]

/-- A HOLD that fits takes one step, and one more to deliver the word it emits. -/
theorem Draining.run_hold (D : Draining c ds (h :: hs) ws s)
    (hfits : ¬ Overflows (pendingOf s.co) h) :
    ∃ n ≤ 2, ∃ t, runN n s = .next t ∧ Draining c (ds ++ wordsOf (pendingOf s.co) h) hs ws t ∧
      pendingOf t.co = pendingAfter (pendingOf s.co) h := by
  obtain ⟨u, hstep, Du, hco⟩ := D.step_hold
  rw [← hco] at hfits ⊢
  obtain ⟨M, ha, hc, hv, ho, hw, hr, he, rs, hhs, hq⟩ := Du
  obtain ⟨co, hopen, hpend, ⟨hwords, e⟩ | ⟨hwords, e⟩⟩ := coalescerHold_of_fits M.noFault hc hv hfits
  all_goals rw [e] at hstep; rw [hwords]
  · refine ⟨1, by omega, _, runN_succ_of_step hstep 0, ?_, hpend⟩
    rw [List.append_nil]
    exact ⟨⟨M.isReset, M.noFault, M.noRst, M.noScript, M.noPop⟩, ha, hopen, hv, ho, hw, hr, he, rs,
      hhs, hq⟩
  · have hpop : step (setCo co (emit u.co.acc false u)) =
        .next (handOver (setCo co (emit u.co.acc false u))) :=
      step_handOver M.isReset M.noRst M.noScript rfl ho
    refine ⟨2, le_rfl, _, (runN_succ_of_step hstep 1).trans (runN_succ_of_step hpop 0), ?_, hpend⟩
    refine ⟨⟨M.isReset, M.noFault, M.noRst, M.noScript, rfl⟩, ha, hopen, rfl, ho, ?_, hr, he, rs,
      hhs, hq⟩
    rw [nonFinal_append, nonFinal_toNat, ← hw]
    rfl

/-- A HOLD that overflows faults in one step, with the words before it delivered. -/
theorem Draining.run_overflow (D : Draining c ds (h :: hs) ws s)
    (hov : Overflows (pendingOf s.co) h) :
    ∃ t, runN 1 s = .next t ∧ OverflowedAfter c ds t := by
  obtain ⟨u, hstep, Du, hco⟩ := D.step_hold
  rw [← hco] at hov
  obtain ⟨-, hl, hsum⟩ := hov
  rw [show h.level = u.co.level from hl,
    coalescerHold_of_overflow Du.moves.noFault Du.isOpen hsum] at hstep
  exact ⟨_, runN_succ_of_step hstep 0, rfl, rfl, Du.sameEnded,
    (emittedWords_of_empty Du.empty).trans Du.delivered⟩

/-- A list of HOLDs is performed as the fold says: the words it emits are delivered, until the list ends
or a HOLD overflows. -/
theorem Draining.run_holds (hs : List Hold) : ∀ {s : State} {ds : List Nat},
    Draining c ds hs ws s →
    (∃ n ≤ 2 * hs.length, ∃ t es, runN n s = .next t ∧ Draining c es [] ws t ∧
      pendingOf t.co = hs.foldl pendingAfter (pendingOf s.co) ∧
      foldFrom (pendingOf s.co) hs ds = .ok (es ++ [t.co.acc.toNat])) ∨
    (∃ n ≤ 2 * hs.length, ∃ t es, runN n s = .next t ∧ OverflowedAfter c es t ∧
      foldFrom (pendingOf s.co) hs ds = .error es) := by
  induction hs with
  | nil => exact fun {s ds} D => .inl ⟨0, le_rfl, s, ds, runN_zero s, D, rfl, rfl⟩
  | cons h hs ih =>
    intro s ds D
    rw [List.length_cons]
    by_cases hov : Overflows (pendingOf s.co) h
    · obtain ⟨t, ht, O⟩ := D.run_overflow hov
      exact .inr ⟨1, by omega, t, ds, ht, O, foldFrom_of_overflows hov hs ds⟩
    obtain ⟨n, hn, u, hu, Du, hp⟩ := D.run_hold hov
    rw [foldFrom_of_fits hov, List.foldl_cons, ← hp]
    rcases ih Du with ⟨m, hm, t, es, ht, h'⟩ | ⟨m, hm, t, es, ht, h'⟩
    · exact .inl ⟨n + m, by omega, t, es, (runN_add hu m).trans ht, h'⟩
    · exact .inr ⟨n + m, by omega, t, es, (runN_add hu m).trans ht, h'⟩

/-- With no HOLD to come, FINISH takes one step, and one more to deliver the final word, which ends the
run (R104). -/
theorem Draining.run_finish (D : Draining c ds [] [0x40000000] s) :
    ∃ t, runN 2 s = .next t ∧ t.fault = false ∧ t.hreqs = [] ∧
      t.results = c.results ++ [.complete (nonFinal ds ++ [⟨s.co.acc, true⟩]) c.err] := by
  obtain ⟨hi, hq⟩ := D.queues_of_nil
  obtain ⟨M, ha, hc, hv, ho, hw, hr, he, -⟩ := D
  have hport : hreqReady 0x40000000 s = true :=
    (requestReady_finish_iff s).mpr ⟨M.noFault, .inl hv⟩
  have hfinish : step s = .next (setCo ⟨s.co.level, s.co.acc, true⟩
      (emit s.co.acc true { s with hreqs := [] })) := by
    rw [(M.step_of_port ha hi hq).1 hport, decodeHreq_finish, exec_finish,
      whenReset_of_initialised (by exact M.isReset),
      coalescerFinish_of_open (by exact M.noFault) (by exact hc) (by exact hv)]
  have hpop := step_handOver (s := setCo ⟨s.co.level, s.co.acc, true⟩
    (emit s.co.acc true { s with hreqs := [] })) M.isReset M.noRst M.noScript rfl ho
  refine ⟨_, (runN_succ_of_step hfinish 1).trans (runN_succ_of_step hpop 0), M.noFault, rfl,
    ?_⟩
  rw [← hw, ← hr, ← he]
  rfl

end

theorem FreshAlone.pendingOf_eq {s : State} {ws : List HreqWord} (F : FreshAlone s ws) :
    pendingOf s.co = (.high, 0) := by
  rw [F.fresh]; rfl

theorem FreshAlone.draining {s : State} {rs : List Hold} {ws : List HreqWord}
    (F : FreshAlone s (rs.map holdWord ++ ws)) : Draining s [] rs ws s where
  moves := ⟨F.isReset, F.noFault, F.noRst, F.noScript, by rw [F.empty]; rfl⟩
  isAlone := F.isAlone
  isOpen := by rw [F.fresh]; rfl
  empty := F.empty
  drained := F.drained
  delivered := F.noWords
  sameEnded := rfl
  sameErr := rfl
  toCome := ⟨rs, by rw [F.noIssue]; rfl, F.requests⟩

/-- Settles O26: the HOLDs are performed as the fold says, and after them FINISH delivers the pending
run. -/
theorem coalescerRefinesFold : Obligations.CoalescerRefinesFold := by
  intro s rs F
  rw [coalesce_eq_foldFrom, ← F.pendingOf_eq]
  rcases F.draining.run_holds with ⟨n, hn, u, es, hu, D, -, hfold⟩ | ⟨n, hn, t, es, ht, O, hfold⟩ <;>
    rw [hfold]
  · obtain ⟨t, ht, hf, hq, hr⟩ := D.run_finish
    refine ⟨n + 2, by omega, t, (runN_add hu 2).trans ht, hf, hq, ?_⟩
    rw [hr, markLast_concat]
  · exact ⟨n, by omega, t, ht, O.faulted, O.code, O.sameEnded, O.emitted⟩

/-! ### A frame run by itself (R136) -/

/-- HOLDs that alternate in level from High are runs of one HOLD each. -/
theorem eq_runs_of_levels {hs : List Hold}
    (hl : hs.map Hold.level = (List.range hs.length).map levelAt) :
    ((hs.map fun h => [h.dur]).mapIdx fun k ds =>
      ds.map fun d => (⟨levelAt k, d⟩ : Hold)).flatten = hs := by
  have hruns : (hs.map fun h => [h.dur]).mapIdx (fun k ds =>
      ds.map fun d => (⟨levelAt k, d⟩ : Hold)) = hs.map fun h => [h] := by
    refine List.ext_getElem (by simp) fun k hk _ => ?_
    have hk' : k < hs.length := by simpa using hk
    have := List.getElem_of_eq hl (i := k) (by simpa using hk')
    simp only [List.getElem_map, List.getElem_range] at this
    simp [← this]
  rw [hruns, ← List.flatMap_def, List.flatMap_singleton']

/-- Nonzero HOLDs that alternate in level from High are coalesced to a word each. -/
theorem coalesce_of_alternating {hs : List Hold} (hne : hs ≠ [])
    (hl : hs.map Hold.level = (List.range hs.length).map levelAt) (hnz : ∀ h ∈ hs, h.dur ≠ 0#16) :
    coalesce hs = .ok (hs.map fun h => h.dur.toNat) := by
  have hfits : ∀ h : Hold, ([h.dur].map BitVec.toNat).sum ≤ 0xFFFF := fun h => by
    have := h.dur.isLt
    simp only [List.map_cons, List.map_nil, List.sum_singleton]
    omega
  obtain ⟨g, gs, rfl⟩ := List.exists_cons_of_ne_nil hne
  have hsums := runsCoalesceToTheirSums [g.dur] (gs.map fun h => [h.dur]) (hfits g) (by
    simp only [List.forall_mem_map]
    intro h hm
    exact ⟨List.cons_ne_nil _ _, by simpa using hnz h (List.mem_cons_of_mem _ hm), hfits h⟩)
  rw [← List.map_cons (f := fun h : Hold => [h.dur]), eq_runs_of_levels hl] at hsums
  rw [hsums, List.map_map]
  congr 1

theorem coalesce_holdsFrame (p : Payload) (withStop : Bool) :
    coalesce (holdsFrame p withStop) = .ok ((holdsFrame p withStop).map fun h => h.dur.toNat) := by
  have hlen := holdsFrame_length p withStop
  refine coalesce_of_alternating (List.ne_nil_of_length_pos ?_) ?_
    fun h => dur_ne_zero_of_mem_holdsFrame
  · rw [hlen]
    split <;> omega
  · rw [holdsFrame_levels, hlen]

/-- The last HOLD of a byte is that of bit 0 (R134). -/
theorem holdsByte_getLast? (b : Byte) :
    (holdsByte b).getLast? = some ⟨.low, if b.getLsbD 0 then 1620 else 540⟩ := by
  have hbit : ∀ bit, (holdsBit bit).getLast? = some ⟨.low, if bit then 1620 else 540⟩ := by decide
  rw [holdsByte, show [7, 6, 5, 4, 3, 2, 1, 0] = [7, 6, 5, 4, 3, 2, 1] ++ [0] from rfl,
    List.flatMap_append, List.flatMap_singleton, List.getLast?_append, hbit, Option.some_or]

/-- The last HOLD of a frame: the stop's, or that of bit 0 of the complement of byte c. -/
theorem holdsFrame_getLast? (p : Payload) (withStop : Bool) :
    (holdsFrame p withStop).getLast? =
      some ⟨.low, if withStop then 5220 else if p.c.getLsbD 0 then 540 else 1620⟩ := by
  rw [holdsFrame, List.getLast?_append]
  cases withStop with
  | true => rfl
  | false =>
    have hcomplement : (not8 p.c).getLsbD 0 = !p.c.getLsbD 0 := by simp [not8]
    rw [if_neg Bool.false_ne_true, if_neg Bool.false_ne_true, List.getLast?_nil, Option.none_or,
      List.getLast?_append, holdsPair, List.getLast?_append, holdsByte_getLast?, hcomplement]
    cases p.c.getLsbD 0 <;> rfl

/-- A frame planned on a fresh, drained coalescer is queued in one step. -/
theorem FreshAlone.step_encodeFrame {s : State} (F : FreshAlone s []) (a b c : Byte)
    (withStop : Bool) :
    ∃ u, step { s with script := [.perform (.encodeFrame a b c withStop)] } = .next u ∧
      Draining s [] (holdsFrame ⟨a, b, c⟩ withStop) [] u ∧ u.co = s.co := by
  refine ⟨{ s with script := [], issuing := holdsFrame ⟨a, b, c⟩ withStop }, ?_,
    { F.draining (rs := []) with
      moves := ⟨F.isReset, F.noFault, F.noRst, rfl, by rw [F.empty]; rfl⟩
      toCome := ⟨[], (List.append_nil _).symm, F.requests⟩ }, rfl⟩
  have hexec := step_of_perform_alone (i := .encodeFrame a b c withStop) (as := [])
    (s := { s with script := [.perform (.encodeFrame a b c withStop)] }) F.noRst rfl F.isAlone rfl
  rw [hexec, exec_encodeFrame, whenReset_of_initialised (by exact F.isReset), issueHolds,
    if_neg (by simp [F.noFault]), F.noIssue, List.nil_append]

/-- HOLDs that are coalesced to a word each, on a fresh coalescer: all but the last are delivered, and the
last one is pending. -/
theorem Draining.run_word_each {c s : State} {init : List Hold} {last : Hold}
    (D : Draining c [] (init ++ [last]) [] s) (hfresh : pendingOf s.co = (.high, 0))
    (heach : coalesce (init ++ [last]) = .ok ((init ++ [last]).map fun h => h.dur.toNat))
    (hnz : last.dur ≠ 0#16) :
    ∃ n t, runN n s = .next t ∧ Draining c (init.map fun h => h.dur.toNat) [] [] t ∧
      t.co = ⟨last.level, last.dur, false⟩ := by
  rw [coalesce_eq_foldFrom, ← hfresh] at heach
  rcases D.run_holds with ⟨n, -, t, es, ht, Dt, hp, hok⟩ | ⟨n, -, t, es, ht, O, herr⟩
  · have hwords := Except.ok.inj (hok.symm.trans heach)
    rw [List.map_append] at hwords
    obtain ⟨rfl, hpend⟩ := List.append_inj' hwords rfl
    have hacc : t.co.acc = last.dur := BitVec.eq_of_toNat_eq (List.singleton_injective hpend)
    rw [List.foldl_concat] at hp
    have hlevel : t.co.level = last.level := (congrArg Prod.fst hp).trans (pendingAfter_level hnz)
    refine ⟨n, t, ht, Dt, ?_⟩
    rw [← hlevel, ← hacc, ← Dt.isOpen]
  · exact absurd (heach.symm.trans herr) nofun

/-- Settles O38: the levels of a frame alternate, so that its HOLDs are coalesced to a word each. -/
theorem frameRunsThroughCoalescer : Obligations.FrameRunsThroughCoalescer := by
  intro s a b c withStop F
  have hlast := holdsFrame_getLast? ⟨a, b, c⟩ withStop
  have hnz := dur_ne_zero_of_mem_holdsFrame (List.mem_of_getLast? hlast)
  have heach := coalesce_holdsFrame ⟨a, b, c⟩ withStop
  obtain ⟨u, hplan, D, hco⟩ := F.step_encodeFrame a b c withStop
  have hsplit := (List.dropLast_append_getLast? _ hlast).symm
  generalize (holdsFrame ⟨a, b, c⟩ withStop).dropLast = init at hsplit ⊢
  rw [hsplit] at D heach
  obtain ⟨n, t, ht, Dt, hend⟩ := D.run_word_each (by rw [hco, F.pendingOf_eq]) heach hnz
  refine ⟨n + 1, t, (runN_succ_of_step hplan n).trans ht, Dt.queues_of_nil.1, Dt.moves.noFault,
    Dt.empty, ?_, hend⟩
  rw [Dt.delivered]
  simp [nonFinal]

end Sys2Proof.Machine
end

section
/-! Proofs of the statements about the protocol elements (41_protocol_elements.md): the HOLDs of bytes,
pairs and frames as those of the bits they send, and the composites run by themselves. -/

namespace Sys2Proof.Machine

/-! ### Bits in sending order (R52, R137) -/

/-- The bits of a word in sending order, the most significant first. -/
def sentBits {n : Nat} (w : BitVec n) : List Bool := (List.range n).map w.getMsbD

@[simp] theorem sentBits_length {n : Nat} (w : BitVec n) : (sentBits w).length = n := by
  simp [sentBits]

theorem sentBits_getElem? {n i : Nat} (w : BitVec n) (hi : i < n) :
    (sentBits w)[i]? = some (w.getLsbD (n - 1 - i)) := by
  simp [sentBits, hi, BitVec.getMsbD]

/-- The word on the left is sent first. -/
theorem sentBits_append {m n : Nat} (v : BitVec m) (w : BitVec n) :
    sentBits (v ++ w) = sentBits v ++ sentBits w := by
  simp only [sentBits, List.range_add, List.map_append, List.map_map]
  congr 1
  · refine List.map_congr_left fun i hi => ?_
    rw [BitVec.getMsbD_append, if_neg (by simpa using hi)]
  · refine List.map_congr_left fun i _ => ?_
    simp [BitVec.getMsbD_append]

/-- Each bit of the complement is the other one (R138). -/
theorem sentBits_not8 (b : Byte) : sentBits (not8 b) = (sentBits b).map (!·) := by
  have hnot : not8 b = ~~~b := BitVec.xor_allOnes
  rw [hnot, sentBits, sentBits, List.map_map]
  refine List.map_congr_left fun i hi => ?_
  have hi : i < 8 := List.mem_range.mp hi
  simp [hi]

/-! ### Bytes, pairs and frames as the HOLDs of their bits (R134 to R137) -/

theorem holdsByte_eq (b : Byte) : holdsByte b = (sentBits b).flatMap holdsBit := rfl

theorem holdsPair_eq (b : Byte) :
    holdsPair b = (sentBits b ++ (sentBits b).map (!·)).flatMap holdsBit := by
  rw [holdsPair, holdsByte_eq, holdsByte_eq, sentBits_not8, List.flatMap_append]

/-- Between lead-in and stop a frame sends the bits of its frame word (R137). -/
theorem holdsFrame_eq (p : Payload) (withStop : Bool) :
    holdsFrame p withStop = holdsLeadIn ++ (sentBits (frameWord p)).flatMap holdsBit ++
      (if withStop then holdsStop else []) := by
  simp only [holdsFrame, holdsPair, holdsByte_eq, frameWord, sentBits_append, List.flatMap_append,
    List.append_assoc]

/-! ### The HOLDs of a list of bits, by position -/

theorem flatMap_holdsBit_length (bs : List Bool) : (bs.flatMap holdsBit).length = 2 * bs.length := by
  simp [holdsBit_eq, Nat.mul_comm]

/-- Bit `j` of the list is sent by the HOLDs `2j` and `2j + 1`. -/
theorem flatMap_holdsBit_getElem? {bs : List Bool} {j : Nat} {bit : Bool} (h : bs[j]? = some bit) :
    (bs.flatMap holdsBit)[2 * j]? = some ⟨.high, 540⟩ ∧
    (bs.flatMap holdsBit)[2 * j + 1]? = some ⟨.low, if bit then 1620 else 540⟩ := by
  induction bs generalizing j with
  | nil => exact absurd h nofun
  | cons b bs ih =>
    cases j with
    | zero =>
      obtain rfl : b = bit := Option.some.inj h
      rw [List.flatMap_cons, holdsBit_eq]
      exact ⟨rfl, rfl⟩
    | succ j =>
      rw [List.flatMap_cons, holdsBit_eq]
      exact ih h

/-- Settles O11: the second half of a pair sends each bit of the first half inverted. -/
theorem pairSendsComplement : Obligations.PairSendsComplement := by
  refine fun b => ⟨holdsPair_length b, fun i hi => ?_⟩
  have hbit : (sentBits b)[i]? = some (b.getLsbD (7 - i)) := sentBits_getElem? b hi
  have hfirst : (sentBits b ++ (sentBits b).map (!·))[i]? = some (b.getLsbD (7 - i)) := by
    rw [List.getElem?_append_left (by simpa using hi), hbit]
  have hsecond : (sentBits b ++ (sentBits b).map (!·))[8 + i]? = some (!b.getLsbD (7 - i)) := by
    rw [List.getElem?_append_right (by simp), sentBits_length, Nat.add_sub_cancel_left,
      List.getElem?_map, hbit, Option.map_some]
  rw [holdsPair_eq, show 16 + 2 * i = 2 * (8 + i) by omega]
  refine ⟨_, _, (flatMap_holdsBit_getElem? hfirst).2, (flatMap_holdsBit_getElem? hsecond).2, ?_⟩
  cases b.getLsbD (7 - i) <;> decide

/-- After the lead-in a frame has the HOLDs of its frame word's bits. -/
theorem holdsFrame_getElem?_add_two (p : Payload) (withStop : Bool) {k : Nat} (hk : k < 96) :
    (holdsFrame p withStop)[k + 2]? = ((sentBits (frameWord p)).flatMap holdsBit)[k]? := by
  have hlen : k < ((sentBits (frameWord p)).flatMap holdsBit).length := by
    rw [flatMap_holdsBit_length, sentBits_length]
    exact hk
  rw [holdsFrame_eq, List.append_assoc]
  exact List.getElem?_append_left hlen

/-- From entry 98 on a frame has the HOLDs of its stop, if it has one. -/
theorem holdsFrame_getElem?_add_98 (p : Payload) (withStop : Bool) (k : Nat) :
    (holdsFrame p withStop)[98 + k]? = (if withStop then holdsStop else [])[k]? := by
  have hopen : holdsFrame p withStop =
      holdsFrame p false ++ (if withStop then holdsStop else []) := by simp [holdsFrame]
  rw [hopen, List.getElem?_append_right (by simp)]
  simp

/-- Settles O12: lead-in, bits of the frame word and stop, each in its place. -/
theorem frameClosedForm : Obligations.FrameClosedForm := by
  intro p withStop
  refine ⟨holdsFrame_length p withStop, rfl, rfl, fun j hj => ?bits, ?stopHigh, ?stopLow⟩
  case bits =>
    rw [Nat.add_comm 2, Nat.add_comm 3,
      holdsFrame_getElem?_add_two p withStop (show 2 * j < 96 by omega),
      holdsFrame_getElem?_add_two p withStop (show 2 * j + 1 < 96 by omega)]
    exact flatMap_holdsBit_getElem? (sentBits_getElem? (frameWord p) hj)
  case stopHigh => exact (holdsFrame_getElem?_add_98 p withStop 0).trans (by cases withStop <;> rfl)
  case stopLow => exact (holdsFrame_getElem?_add_98 p withStop 1).trans (by cases withStop <;> rfl)

/-! ### What bits, pairs and frames add up to (R139) -/

/-- A Low of this duration: with 1620 the Low of a one, with 540 that of a zero. -/
def isLowOf (d : Dur) (h : Hold) : Bool := h.level == .low && h.dur == d

/-- The ones, the zeros and the duration of a list of HOLDs. -/
structure Totals (hs : List Hold) (ones zeros duration : Nat) : Prop where
  ones_eq     : hs.countP (isLowOf 1620) = ones
  zeros_eq    : hs.countP (isLowOf 540) = zeros
  duration_eq : (hs.map fun h => h.dur.toNat).sum = duration

theorem Totals.append {hs gs : List Hold} {m m' n n' d d' : Nat} (H : Totals hs m n d)
    (G : Totals gs m' n' d') : Totals (hs ++ gs) (m + m') (n + n') (d + d') where
  ones_eq := by rw [List.countP_append, H.ones_eq, G.ones_eq]
  zeros_eq := by rw [List.countP_append, H.zeros_eq, G.zeros_eq]
  duration_eq := by rw [List.map_append, List.sum_append, H.duration_eq, G.duration_eq]

theorem totals_holdsBit (bit : Bool) :
    Totals (holdsBit bit) ([bit].count true) ([bit].count false)
      (540 + 1620 * [bit].count true + 540 * [bit].count false) := by
  cases bit <;> exact ⟨rfl, rfl, rfl⟩

theorem totals_flatMap_holdsBit (bs : List Bool) :
    Totals (bs.flatMap holdsBit) (bs.count true) (bs.count false)
      (540 * bs.length + 1620 * bs.count true + 540 * bs.count false) := by
  induction bs with
  | nil => exact ⟨rfl, rfl, rfl⟩
  | cons bit bs ih =>
    rw [List.flatMap_cons, ← List.singleton_append, List.count_append, List.count_append]
    convert (totals_holdsBit bit).append ih using 1
    rw [List.length_append, List.length_singleton]
    ring

/-- A bit list followed by its complement has as many ones as zeros. -/
theorem count_append_map_not (bs : List Bool) (bit : Bool) :
    (bs ++ bs.map (!·)).count bit = bs.length := by
  have hflip : (bs.map (!·)).count bit = bs.count (!bit) := by
    rw [← List.count_map_of_injective bs _ Bool.not_injective, Bool.not_not]
  rw [List.count_append, hflip, Nat.add_comm, List.count_not_add_count]

theorem totals_holdsPair (b : Byte) : Totals (holdsPair b) 8 8 25920 := by
  have T := totals_flatMap_holdsBit (sentBits b ++ (sentBits b).map (!·))
  simpa only [← holdsPair_eq, count_append_map_not, List.length_append, List.length_map,
    sentBits_length] using T

theorem totals_holdsFrame (p : Payload) (withStop : Bool) :
    Totals (holdsFrame p withStop) 24 24 (if withStop then 92320 else 86560) := by
  have lead : Totals holdsLeadIn 0 0 8800 := ⟨rfl, rfl, rfl⟩
  have stop : Totals (if withStop then holdsStop else []) 0 0 (if withStop then 5760 else 0) := by
    cases withStop <;> exact ⟨rfl, rfl, rfl⟩
  have T := (((lead.append (totals_holdsPair p.a)).append (totals_holdsPair p.b)).append
    (totals_holdsPair p.c)).append stop
  cases withStop <;> exact T

/-- Settles O13: a byte and its complement have eight ones and eight zeros, and a frame has three such
pairs. -/
theorem frameDurationIsConstant : Obligations.FrameDurationIsConstant :=
  ⟨fun b => ⟨(totals_holdsPair b).ones_eq, (totals_holdsPair b).zeros_eq⟩,
    fun p withStop =>
      have T := totals_holdsFrame p withStop
      ⟨T.ones_eq, T.zeros_eq, T.duration_eq⟩⟩

/-! ### Composites run by themselves (R130 to R136) -/

/-- Outside a fault a composite appends its HOLDs to those still to be issued. -/
theorem whenReset_issueHolds {s : State} (hi : s.initialised = true) (hf : s.fault = false)
    (hs : List Hold) :
    whenReset s (issueHolds hs s) = .next { s with issuing := s.issuing ++ hs } := by
  rw [whenReset_of_initialised hi, issueHolds, if_neg (by simp [hf])]

/-- Settles O35: each element issues its list of two HOLDs. -/
theorem elementsIssueTheirHolds : Obligations.ElementsIssueTheirHolds := by
  intro s hi hf
  rw [exec_leadIn, exec_bitOne, exec_bitZero, exec_stop]
  exact ⟨whenReset_issueHolds hi hf _, whenReset_issueHolds hi hf _, whenReset_issueHolds hi hf _,
    whenReset_issueHolds hi hf _⟩

/-- Settles O36: the HOLDs of a byte's bits are `holdsByte`, of which pairs and frames are made. -/
theorem bytesPairsFramesIssueTheirHolds : Obligations.BytesPairsFramesIssueTheirHolds := by
  intro s a b c hi hf
  refine ⟨holdsByte, fun x => ?bits, ?byte, ?pair, fun withStop => ?frame⟩
  case bits => simp only [holdsByte, holdsBit_eq]
  case byte => exact (exec_encodeByte s a).trans (whenReset_issueHolds hi hf _)
  case pair => exact (exec_encodePair s a).trans (whenReset_issueHolds hi hf _)
  case frame =>
    exact (exec_encodeFrame s a b c withStop).trans (whenReset_issueHolds hi hf _)

end Sys2Proof.Machine
end

section
/-! Proofs of the statements about the payload (42_payload.md): the Gray code, the bytes of PACK and
the steps that load or compute them, and where a run sends byte b of its first frame. -/

namespace Sys2Proof.Machine

/-! ### The Gray code (R163, R164) -/

theorem tempOffset_toNat {t : Byte} (hlo : 17 ≤ t.toNat) (hhi : t.toNat ≤ 30) :
    (tempOffset t).toNat = t.toNat - 17 := by
  have hsub : (t - 17#8).toNat = t.toNat - 17 := BitVec.toNat_sub_of_le hlo
  have h4 : t.toNat - 17 < 2 ^ 4 := by omega
  calc (tempOffset t).toNat = (t - 17#8).toNat % 2 ^ 4 := BitVec.toNat_setWidth 4 (t - 17#8)
    _ = t.toNat - 17 := by rw [hsub, Nat.mod_eq_of_lt h4]

theorem greyCode_toNat (x : BitVec 4) : (greyCode x).toNat = (x.toNat / 2).xor x.toNat := by
  rw [greyCode, BitVec.toNat_xor, BitVec.toNat_ushiftRight, Nat.shiftRight_one]
  rfl

/-- The transform is undone by the exclusive or of all right shifts. -/
def greyDecode (y : BitVec 4) : BitVec 4 := y ^^^ (y >>> 1) ^^^ (y >>> 2) ^^^ (y >>> 3)

theorem greyDecode_greyCode : ∀ x : BitVec 4, greyDecode (greyCode x) = x := by decide

theorem greyCode_injective : Function.Injective greyCode :=
  Function.LeftInverse.injective greyDecode_greyCode

/-- Settles O7: offset and transform of the 14 temperatures, with distinctness from the inverse of the
transform. -/
theorem grayCodesOfLegalTemperatures : Obligations.GrayCodesOfLegalTemperatures := by
  refine ⟨?codes, fun k hk => ?offset, fun j hj k hk hjk => ?distinct, ?oneBit⟩
  case codes => rfl
  case offset =>
    have ht : (BitVec.ofNat 8 (17 + k)).toNat = 17 + k := Nat.mod_eq_of_lt (by omega)
    rw [tempOffset_toNat (by omega) (by omega), ht, Nat.add_sub_cancel_left]
  case distinct =>
    have hnat := congrArg BitVec.toNat (greyCode_injective hjk)
    rwa [BitVec.toNat_ofNat, BitVec.toNat_ofNat, Nat.mod_eq_of_lt (by omega),
      Nat.mod_eq_of_lt (by omega)] at hnat
  case oneBit => decide

/-! ### The bytes of PACK (R166 to R169) -/

/-- The OR of byte b is a concatenation (R167). -/
theorem packB_eq_append (sp : Speed) : packB sp = Config.speedCode sp ++ Config.bMarker :=
  (BitVec.setWidth_append_eq_shiftLeft_setWidth_or (w'' := 8)).symm.trans (BitVec.setWidth_eq _)

/-- The constraint of R1 on the parameters. -/
theorem packB_ne_powerOff (sp : Speed) : packB sp ≠ 0x7B#8 := Config.params.differs sp

theorem packC_of_legal (m : Mode) {t : Byte} (hlo : 17 ≤ t.toNat) (hhi : t.toNat ≤ 30) :
    packC m t =
      ((greyCode (tempOffset t)).setWidth 8 <<< 4) ||| (Config.modeCode m).setWidth 8 :=
  if_pos ((validTemp_iff t).mpr ⟨hlo, hhi⟩)

/-- The OR of byte c is a concatenation (R168). -/
theorem packC_eq_append (m : Mode) {t : Byte} (hlo : 17 ≤ t.toNat) (hhi : t.toNat ≤ 30) :
    packC m t = greyCode (tempOffset t) ++ Config.modeCode m :=
  (packC_of_legal m hlo hhi).trans <|
    (BitVec.setWidth_append_eq_shiftLeft_setWidth_or (w'' := 8)).symm.trans (BitVec.setWidth_eq _)

/-- Settles O8: bytes b and c are concatenations of their two fields. -/
theorem packPlacesItsFields : Obligations.PackPlacesItsFields := by
  intro m sp t hlo hhi
  have hb : (packBytes m sp t).b = Config.speedCode sp ++ Config.bMarker := packB_eq_append sp
  have hc : (packBytes m sp t).c = greyCode (tempOffset t) ++ Config.modeCode m :=
    packC_eq_append m hlo hhi
  refine ⟨rfl, rfl, ?speed, ?marker, ?grey, ?mode⟩
  case speed => rw [hb, BitVec.extractLsb'_append_eq_left]
  case marker => rw [hb, BitVec.extractLsb'_append_eq_right]
  case grey =>
    rw [hc, BitVec.extractLsb'_append_eq_left, greyCode_toNat, tempOffset_toNat hlo hhi]
  case mode => rw [hc, BitVec.extractLsb'_append_eq_right]

/-! ### Commands that start a run (R184 to R186) -/

theorem takeCommand_of_cmdReady {s : State} (hc : cmdReady s = true) (f : State → State) :
    takeCommand f s = f s := if_pos hc

/-- A ready block starts the run of a command whose temperature is legal. -/
theorem whenReset_startRun {s : State} {t : Byte} (hi : s.initialised = true)
    (hc : cmdReady s = true) (hlo : 17 ≤ t.toNat) (hhi : t.toNat ≤ 30) (power : Bool)
    (x y : Payload) :
    whenReset s (takeCommand (if validTemp t then startRun power x y else reject .tempRange) s) =
      .next (startRun power x y s) := by
  rw [whenReset_of_initialised hi, takeCommand_of_cmdReady hc,
    if_pos ((validTemp_iff t).mpr ⟨hlo, hhi⟩)]

/-- Settles O28: the run starts with PACK's bytes in both payload triples. -/
theorem powerOnStartsRun : Obligations.PowerOnStartsRun := by
  intro s m sp t hi hc hlo hhi
  exact ⟨packBytes m sp t, rfl, rfl, packC_of_legal m hlo hhi,
    (exec_encodePowerOn s m sp t).trans (whenReset_startRun hi hc hlo hhi _ _ _)⟩

/-- Settles O29: the run starts with the two halves of the constant table. -/
theorem powerOffStartsRun : Obligations.PowerOffStartsRun := by
  intro s m sp t hi hc hlo hhi
  exact (exec_encodePowerOff s m sp t).trans (whenReset_startRun hi hc hlo hhi _ _ _)

/-! ### Combinational operations run by themselves (R160, R163, R169) -/

/-- Outside a fault a combinational operation leaves its result and nothing else. -/
theorem whenReset_evaluate {s : State} (hi : s.initialised = true) (hf : s.fault = false)
    (r : OpResult) : whenReset s (evaluate r s) = .next { s with opResult := r } := by
  rw [whenReset_of_initialised hi, evaluate, if_neg (by simp [hf])]
  rfl

/-- Settles O39: each operation leaves the result that `evaluate` is given. -/
theorem combinationalOperationsLeaveTheirResult :
    Obligations.CombinationalOperationsLeaveTheirResult := by
  intro s hi hf
  refine ⟨fun t => ?validate, fun x => ?grey, fun m sp t => ⟨packC m t, ?pack, packC_of_legal m⟩⟩
  case validate =>
    rw [exec_validate, whenReset_evaluate hi hf]
    simp only [validTemp_iff]
  case grey => exact (exec_grey s x).trans (whenReset_evaluate hi hf _)
  case pack => exact (exec_pack s m sp t).trans (whenReset_evaluate hi hf _)

/-! ### Where a run sends byte b of its first frame (R137, R191) -/

/-- Bits 31:24 of the frame word are byte b (R137). -/
theorem frameWord_getLsbD_add_24 (p : Payload) {i : Nat} (hi : i < 8) :
    (frameWord p).getLsbD (24 + i) = p.b.getLsbD i := by
  simp only [frameWord, BitVec.getLsbD_append]
  rw [if_neg (by omega), if_neg (by omega), if_neg (by omega), if_pos (by omega)]
  congr 1
  omega

/-- The words of a run hold the Lows of the first frame's bits. -/
theorem runWords_firstFrame_bit (x y : Payload) {j : Nat} (hj : j < 48) :
    (runWords x y)[3 + 2 * j]? =
      some ⟨if (frameWord x).getLsbD (47 - j) then 1620 else 540, false⟩ := by
  obtain ⟨-, -, -, hbits, -, -⟩ := frameClosedForm x true
  have hlen : 3 + 2 * j < (holdsFrame x true).length := by
    rw [holdsFrame_length, if_pos rfl]
    omega
  have hprog := (List.getElem?_append_left (l₂ := holdsFrame y false) hlen).trans (hbits j hj).2
  have hlast : (3 + 2 * j == 197) = false := beq_false_of_ne (by omega)
  rw [runWords_getElem? hprog, hlast]
  rfl

/-- Bit `i` of byte b of the first frame is sent by word `49 - 2 * i` of a run. -/
theorem runWords_byteB_bit (x y : Payload) {i : Nat} (hi : i < 8) :
    (runWords x y)[49 - 2 * i]? = some ⟨if x.b.getLsbD i then 1620 else 540, false⟩ := by
  have hword := runWords_firstFrame_bit x y (show 23 - i < 48 by omega)
  rwa [show 3 + 2 * (23 - i) = 49 - 2 * i by omega, show 47 - (23 - i) = 24 + i by omega,
    frameWord_getLsbD_add_24 x hi] at hword

theorem lowOfBit_injective {u v : Bool}
    (h : (if u then 1620#16 else 540#16) = (if v then 1620#16 else 540#16)) : u = v := by
  revert u v
  decide

/-- Runs whose first frames have different bytes b differ in one of words 34 to 49. -/
theorem runWords_differ_of_byteB {x x' : Payload} (y y' : Payload) (hb : x.b ≠ x'.b) :
    ∃ k, 34 ≤ k ∧ k ≤ 49 ∧ (runWords x y)[k]? ≠ (runWords x' y')[k]? := by
  by_contra! hsame
  refine hb (BitVec.eq_of_getLsbD_eq fun i hi => ?_)
  have hword := hsame (49 - 2 * i) (by omega) (by omega)
  rw [runWords_byteB_bit x y hi, runWords_byteB_bit x' y' hi] at hword
  exact lowOfBit_injective (OutWord.mk.inj (Option.some.inj hword)).1

/-- Settles O9: R1 keeps byte b of every power-on command apart from that of the constant table. -/
theorem powerOffDiffersInByteB : Obligations.PowerOffDiffersInByteB := fun _ sp _ =>
  ⟨rfl, packB_ne_powerOff sp, runWords_differ_of_byteB _ _ (packB_ne_powerOff sp).symm⟩

end Sys2Proof.Machine
end

section
/-! Proofs of the statements about what a run sends (43_transmissions.md): the hold program entry by
entry, its words and their totals, and the bound on the accumulator. -/

namespace Sys2Proof.Machine

/-! ### The two frames of a run (R187, R188) -/

/-- A stopped frame is the open frame and a stop (R136). -/
theorem holdsFrame_true (p : Payload) : holdsFrame p true = holdsFrame p false ++ holdsStop := by
  simp [holdsFrame]

theorem holdsFrame_false (p : Payload) :
    holdsFrame p false = holdsLeadIn ++ holdsPair p.a ++ holdsPair p.b ++ holdsPair p.c := by
  simp [holdsFrame]

/-- Settles O14: the frame and the stop make the stopped frame, the elements after them the open one. -/
theorem powerOffSequenceIsTwoFrames : Obligations.PowerOffSequenceIsTwoFrames := by
  refine ⟨?_, rfl⟩
  rw [holdsFrame_true, holdsFrame_false ⟨0xB2, 0x00, 0x00⟩]
  simp only [List.append_assoc]

section
variable (x y : Payload)

theorem progHolds_firstFrame {i : Nat} (hi : i < 100) :
    (progHolds x y)[i]? = (holdsFrame x true)[i]? :=
  List.getElem?_append_left (by simpa using hi)

theorem progHolds_secondFrame (i : Nat) :
    (progHolds x y)[100 + i]? = (holdsFrame y false)[i]? := by
  rw [progHolds, List.getElem?_append_right (by simp)]
  simp

/-- Entry `i` of the program, other than FINISH, is HOLD `i` of the list. -/
theorem prog_of_ne {i : Nat} (hi : i ≠ 198) :
    prog x y i = (progHolds x y)[i]?.map fun h => .hold h.level h.dur := if_neg hi

theorem prog_finish : prog x y 198 = some .finish := rfl

theorem prog_of_gt {i : Nat} (hi : 198 < i) : prog x y i = none := by
  rw [prog_of_ne x y (by omega), List.getElem?_eq_none (by simpa using hi.le), Option.map_none]

theorem prog_firstFrame {i : Nat} (hi : i < 100) :
    prog x y i = (holdsFrame x true)[i]?.map fun h => .hold h.level h.dur := by
  rw [prog_of_ne x y (by omega), progHolds_firstFrame x y hi]

theorem prog_secondFrame {i : Nat} (hi : i < 98) :
    prog x y (100 + i) = (holdsFrame y false)[i]?.map fun h => .hold h.level h.dur := by
  rw [prog_of_ne x y (by omega), progHolds_secondFrame]

end

section
variable {x y : Payload}

theorem prog_of_progHolds {k : Nat} {h : Hold} (e : (progHolds x y)[k]? = some h) :
    prog x y k = some (.hold h.level h.dur) := by
  have hk : k < 198 := by simpa using (List.getElem?_eq_some_iff.mp e).1
  rw [prog_of_ne x y (by omega), e, Option.map_some]

theorem prog_of_firstFrame {i : Nat} {h : Hold} (e : (holdsFrame x true)[i]? = some h) :
    prog x y i = some (.hold h.level h.dur) := by
  have hi : i < 100 := by simpa using (List.getElem?_eq_some_iff.mp e).1
  exact prog_of_progHolds ((progHolds_firstFrame x y hi).trans e)

theorem prog_of_secondFrame {i : Nat} {h : Hold} (e : (holdsFrame y false)[i]? = some h) :
    prog x y (100 + i) = some (.hold h.level h.dur) :=
  prog_of_progHolds ((progHolds_secondFrame x y i).trans e)

end

/-- Settles O15: the first 100 entries are those of the stopped frame and the next 98 those of the open
one, each by the closed form of a frame. -/
theorem holdProgramClosedForm : Obligations.HoldProgramClosedForm := by
  intro x y
  obtain ⟨-, hx0, hx1, hxbits, hx98, hx99⟩ := frameClosedForm x true
  obtain ⟨-, hy0, hy1, hybits, -, -⟩ := frameClosedForm y false
  refine ⟨fun i => prog_firstFrame x y, fun i => prog_secondFrame x y, prog_of_firstFrame hx0,
    prog_of_firstFrame hx1, fun j hj => ?firstBits, prog_of_firstFrame hx98, prog_of_firstFrame hx99,
    prog_of_secondFrame hy0, prog_of_secondFrame hy1, fun j hj => ?secondBits, prog_finish x y,
    fun i hi => ?entries, fun i => prog_of_gt x y⟩
  case firstBits =>
    obtain ⟨hhigh, hlow⟩ := hxbits j hj
    exact ⟨prog_of_firstFrame hhigh, prog_of_firstFrame hlow⟩
  case secondBits =>
    obtain ⟨hhigh, hlow⟩ := hybits j hj
    rw [show 102 + 2 * j = 100 + (2 + 2 * j) by omega, show 103 + 2 * j = 100 + (3 + 2 * j) by omega]
    exact ⟨prog_of_secondFrame hhigh, prog_of_secondFrame hlow⟩
  case entries =>
    obtain ⟨h, e⟩ := exists_progHolds x y hi
    exact ⟨h, prog_of_progHolds e, progHolds_dur_ne_zero e, progHolds_level e, decodeHreq_holdWord h⟩

/-! ### The words of a run (R191) -/

/-- Settles O56: word `k` is made of HOLD `k`, as entry `k` is. -/
theorem runWordsAreProgramDurations : Obligations.RunWordsAreProgramDurations := by
  refine fun x y => ⟨runWords_length x y, fun k hk => ?_⟩
  obtain ⟨h, e⟩ := exists_progHolds x y hk
  exact ⟨h.level, h.dur, prog_of_progHolds e, runWords_getElem? e⟩

theorem runWords_map_data (x y : Payload) :
    (runWords x y).map OutWord.data = (progHolds x y).map Hold.dur := by
  refine List.ext_getElem (by simp) fun k _ _ => ?_
  simp [runWords]

theorem runWords_data_firstFrame {x y : Payload} {k : Nat} {h : Hold}
    (e : (holdsFrame x true)[k]? = some h) :
    ((runWords x y)[k]?).map OutWord.data = some h.dur := by
  have hk : k < 100 := by simpa using (List.getElem?_eq_some_iff.mp e).1
  rw [runWords_getElem? ((progHolds_firstFrame x y hk).trans e), Option.map_some]

theorem runWords_data_secondFrame {x y : Payload} {k : Nat} {h : Hold}
    (e : (holdsFrame y false)[k]? = some h) :
    ((runWords x y)[100 + k]?).map OutWord.data = some h.dur := by
  rw [runWords_getElem? ((progHolds_secondFrame x y k).trans e), Option.map_some]

/-- R195's sum: the durations of the stopped frame and those of the open one (R139). -/
theorem runWords_sum (x y : Payload) : ((runWords x y).map fun o => o.data.toNat).sum = 178880 := by
  have T := (totals_holdsFrame x true).append (totals_holdsFrame y false)
  calc ((runWords x y).map fun o => o.data.toNat).sum
      = (((runWords x y).map OutWord.data).map BitVec.toNat).sum := by rw [List.map_map]; rfl
    _ = ((progHolds x y).map fun h => h.dur.toNat).sum := by
        rw [runWords_map_data, List.map_map]; rfl
    _ = 178880 := T.duration_eq

/-! ### The durations of a run (R192, R195) -/

/-- The four durations of the protocol's elements (R130 to R133). -/
def elementDurs : List Dur := [tMark, tOne, tLead, tStop]

theorem dur_mem_of_mem_holdsFrame {p : Payload} {withStop : Bool} {h : Hold}
    (hm : h ∈ holdsFrame p withStop) : h.dur ∈ elementDurs := by
  have lead : ∀ g ∈ holdsLeadIn, g.dur ∈ elementDurs := by decide
  have bit : ∀ b, ∀ g ∈ holdsBit b, g.dur ∈ elementDurs := by decide
  have stop : ∀ g ∈ (if withStop then holdsStop else []), g.dur ∈ elementDurs := by
    cases withStop <;> decide
  rw [holdsFrame_eq, List.mem_append, List.mem_append, List.mem_flatMap] at hm
  rcases hm with (hl | ⟨b, -, hb⟩) | hs
  · exact lead h hl
  · exact bit b h hb
  · exact stop h hs

theorem dur_mem_of_mem_progHolds {x y : Payload} {h : Hold} (hm : h ∈ progHolds x y) :
    h.dur ∈ elementDurs :=
  (List.mem_append.mp hm).elim dur_mem_of_mem_holdsFrame dur_mem_of_mem_holdsFrame

theorem data_mem_of_mem_runWords {x y : Payload} {o : OutWord} (hm : o ∈ runWords x y) :
    o.data ∈ elementDurs := by
  have hd : o.data ∈ (progHolds x y).map Hold.dur :=
    runWords_map_data x y ▸ List.mem_map_of_mem hm
  obtain ⟨h, hh, e⟩ := List.mem_map.mp hd
  exact e ▸ dur_mem_of_mem_progHolds hh

theorem toNat_le_of_mem_elementDurs {d : Dur} (hd : d ∈ elementDurs) : d.toNat ≤ 5220 := by
  have hall : elementDurs.all fun d => decide (d.toNat ≤ 5220) := by decide
  exact of_decide_eq_true (List.all_eq_true.mp hall d hd)

theorem coalescerAfter_acc_le (x y : Payload) (k : Nat) : (coalescerAfter x y k).acc.toNat ≤ 5220 := by
  unfold coalescerAfter
  split
  · exact Nat.zero_le _
  · split
    · exact toNat_le_of_mem_elementDurs (dur_mem_of_mem_progHolds (List.mem_of_getElem? ‹_›))
    · exact Nat.zero_le _

/-- Settles O55: in a run the coalescer holds one HOLD of the program, or is fresh. -/
theorem accumulatorStaysBelow5221 : Obligations.AccumulatorStaysBelow5221 := by
  intro s R hp
  rw [(R.inRun hp).1]
  exact coalescerAfter_acc_le _ _ _

/-! ### The totals of a run (R195) -/

/-- The last HOLD of an open frame sends the complement of bit 0 of byte c. -/
theorem holdsFrame_false_getElem?_97 (p : Payload) :
    (holdsFrame p false)[97]? = some ⟨.low, if p.c.getLsbD 0 then 540 else 1620⟩ := by
  have hlast := holdsFrame_getLast? p false
  rwa [List.getLast?_eq_getElem?, holdsFrame_length] at hlast

/-- The mode code stands in the low half of byte c (R168). -/
theorem packC_getLsbD_zero (m : Mode) {t : Byte} (ht : validTemp t = true) :
    (packC m t).getLsbD 0 = (Config.modeCode m).getLsbD 0 := by
  obtain ⟨hlo, hhi⟩ := (validTemp_iff t).mp ht
  rw [packC_eq_append m hlo hhi, BitVec.getLsbD_append, if_pos (by omega)]

/-- Settles O57: the words by the closed form of the two frames, the sum by the frames' totals, and no word
of 1320 because no element has that duration. -/
theorem runTotals : Obligations.RunTotals := by
  intro c hc
  obtain ⟨-, hx0, hx1, -, hx98, hx99⟩ := frameClosedForm (firstPayload c) true
  obtain ⟨-, hy0, hy1, -, -, -⟩ := frameClosedForm (secondPayload c) false
  refine ⟨runWords_length _ _, runWords_sum _ _, runWords_data_firstFrame hx0,
    runWords_data_firstFrame hx1, runWords_data_firstFrame hx98, runWords_data_firstFrame hx99,
    runWords_data_secondFrame hy0, runWords_data_secondFrame hy1,
    runWords_data_secondFrame (holdsFrame_false_getElem?_97 _), ?off, ?on, fun o ho he => ?no1320⟩
  case off => rintro rfl; rfl
  case on => rintro m sp t rfl; exact packC_getLsbD_zero m hc
  case no1320 =>
    have absent : 1320#16 ∉ elementDurs := by decide
    exact absent (he ▸ data_mem_of_mem_runWords ho)

end Sys2Proof.Machine
end

section
/-! Proofs of the statements about the command port and about a whole run (43_transmissions.md): when the
block takes a command, and the run of an accepted one while the host takes every word. -/

namespace Sys2Proof.Machine

/-! ### Taking a command (R181, R183) -/

theorem cmdReady_iff (s : State) : cmdReady s = true ↔
    s.fault = false ∧ s.out.valid = false ∧ running s.sq.phase = false := by
  simp only [cmdReady, Bool.and_eq_true, Bool.not_eq_true', and_assoc]

/-- A command word has one effect, or waits (R181). -/
theorem exec_decodeCmd_eq (w : CmdWord) (s : State) :
    ∃ effect, exec (decodeCmd w) s = whenReset s (takeCommand effect s) := by
  unfold decodeCmd
  split
  · exact ⟨_, exec_rejectReserved ..⟩
  split
  · exact ⟨_, exec_rejectBadMode ..⟩
  split
  · split
    · exact ⟨_, exec_encodePowerOn ..⟩
    · exact ⟨_, exec_encodePowerOff ..⟩
  · exact ⟨_, exec_rejectTempRange ..⟩

theorem exec_decodeCmd_of_not_cmdReady {s : State} (hi : s.initialised = true)
    (hc : cmdReady s = false) (w : CmdWord) : exec (decodeCmd w) s = .next s := by
  obtain ⟨effect, e⟩ := exec_decodeCmd_eq w s
  rw [e, whenReset_of_initialised hi, takeCommand, hc, if_neg Bool.false_ne_true]

section
variable {s : State} (M : DeviceMoves s) (ha : s.alone = false) (hn : s.issuing = [])
include M ha hn

/-- With no HOLD of a composite queued the integrated block moves by its own turn. -/
theorem DeviceMoves.activity_of_integrated : activity s = blockTurn s := by
  rw [activity_of_quiet M.noRst M.noScript]
  simp [deviceTurn, M.isReset, M.noPop, M.noFault, ha, hn]

/-- The block runs the word taken, on the state in which the handshake is complete. -/
theorem DeviceMoves.step_of_takenWord {w : CmdWord} {t : State} (hc : cmdReady s = true)
    (ht : takenWord s = some (w, t)) : step s = exec (decodeCmd w) t := by
  obtain ⟨-, -, hp⟩ := (cmdReady_iff s).mp hc
  refine Machine.step_of_run ?_
  rw [M.activity_of_integrated ha hn]
  simp [blockTurn, hp, hc, ht]

theorem DeviceMoves.step_of_not_cmdReady (hp : running s.sq.phase = false)
    (hc : cmdReady s = false) : step s = .next s := by
  refine step_of_settle ?_
  rw [M.activity_of_integrated ha hn, ← M.stall_eq_settle]
  simp [blockTurn, hp, hc]

end

/-- Settles O31: a command word is not performed, and the block's turn is a wait. -/
theorem commandWaitsUntilReady : Obligations.CommandWaitsUntilReady :=
  ⟨fun _ w hi hc => exec_decodeCmd_of_not_cmdReady hi hc w,
    fun _ M ha hn hp hc => M.step_of_not_cmdReady ha hn hp hc⟩

theorem exists_takenWord {s : State} (h : s.cmdOffers ≠ []) : ∃ w t, takenWord s = some (w, t) := by
  unfold takenWord
  split
  · exact absurd ‹_› h
  · exact ⟨_, _, rfl⟩
  · exact ⟨_, _, rfl⟩

/-- Settles O34: whichever word is taken from the port was offered there. -/
theorem takenWordWasOffered : Obligations.TakenWordWasOffered := by
  intro s M ha hn hc hw
  obtain ⟨w, t, ht⟩ := exists_takenWord hw
  obtain ⟨hmem, n, rfl⟩ := eq_withOffers_of_takenWord ht
  exact ⟨w, hmem, n, M.step_of_takenWord ha hn hc ht⟩

section
variable {s : State} {w : CmdWord} (T : TakesCommand s w)
include T

theorem TakesCommand.deviceMoves : DeviceMoves s := by
  obtain ⟨hf, hv, -⟩ := (cmdReady_iff s).mp T.ready
  exact ⟨T.isReset, hf, T.noRst, T.noScript, by simp [hv]⟩

theorem TakesCommand.takenWord_eq : takenWord s = some (w, { s with cmdOffers := [] }) := by
  simp [takenWord, T.offered]

theorem TakesCommand.step_eq : step s = exec (decodeCmd w) { s with cmdOffers := [] } :=
  T.deviceMoves.step_of_takenWord T.isWhole T.noIssue T.ready T.takenWord_eq

end

/-- Settles O48: the one word offered is the word taken. -/
theorem stepRunsTakenCommand : Obligations.StepRunsTakenCommand := fun _ _ => TakesCommand.step_eq

/-! ### What a request of a run writes (R100 to R106) -/

theorem coalescerHold_frame (lv : Level) (d : Dur) (s : State) : ∃ c o f e,
    coalescerHold lv d s = { s with co := c, out := o, fault := f, err := e } := by
  rcases coalescerHold_cases lv d s with ⟨_, e⟩ | ⟨_, _, e⟩ | ⟨_, _, _, e⟩ | ⟨_, _, _, _, _, e⟩ |
    ⟨_, _, _, _, _, e⟩ | ⟨_, _, _, _, _, e⟩ | ⟨_, _, _, _, _, e⟩ <;> exact ⟨_, _, _, _, e⟩

theorem coalescerFinish_frame (s : State) : ∃ c o f e,
    coalescerFinish s = { s with co := c, out := o, fault := f, err := e } := by
  rcases coalescerFinish_cases s with ⟨_, e⟩ | ⟨_, _, e⟩ | ⟨_, _, _, e⟩ | ⟨_, _, _, e⟩ <;>
    exact ⟨_, _, _, _, e⟩

theorem exec_prog_frame {x y : Payload} {k : Nat} {i : Instr} {s : State}
    (hi : s.initialised = true) (hg : prog x y k = some i) : ∃ c o f e,
    exec i s = .next { s with co := c, out := o, fault := f, err := e } := by
  obtain ⟨u, hu, -⟩ := exec_prog hi hg
  rw [hu]
  rcases exec_prog_cases hg hu with ⟨lv, d, rfl⟩ | rfl
  · obtain ⟨c, o, f, e, h⟩ := coalescerHold_frame lv d s
    exact ⟨c, o, f, e, congrArg Host.Outcome.next h⟩
  · obtain ⟨c, o, f, e, h⟩ := coalescerFinish_frame s
    exact ⟨c, o, f, e, congrArg Host.Outcome.next h⟩

theorem exists_prog (x y : Payload) {k : Nat} (hk : k ≤ 198) : ∃ i, prog x y k = some i := by
  rcases Nat.lt_or_eq_of_le hk with hlt | rfl
  · obtain ⟨h, e⟩ := exists_progHolds x y hlt
    exact ⟨_, prog_of_progHolds e⟩
  · exact ⟨_, prog_finish x y⟩

/-! ### The run of an accepted command, drained by the host (R189, R191) -/

/-- The run of the command `c` on an integrated block whose host takes every word, with `k` requests
issued and the earlier runs recorded in `ended`. -/
structure DrainedRun (c : ValidCommand) (ended : List RunResult) (k : Nat) (s : State) : Prop where
  inv       : RunInv s
  isReset   : s.initialised = true
  isWhole   : s.alone = false
  drained   : s.outReady = true
  noRst     : s.rst = false
  noScript  : s.script = []
  begun     : s.sq.phase ≠ .idle
  idx_eq    : s.sq.idx.toNat = k
  first     : s.pkx = firstPayload c
  second    : s.pky = secondPayload c
  sameEnded : s.results = ended

namespace DrainedRun

variable {c : ValidCommand} {ended : List RunResult} {k : Nat} {s : State}

section
variable (D : DrainedRun c ended k s)
include D

theorem phase_eq : s.sq.phase = phaseOfIdx k := D.idx_eq ▸ (D.inv.phaseIdx D.begun).2

theorem running_of_le (hk : k ≤ 198) : running s.sq.phase = true := by
  rw [D.phase_eq]
  exact (running_phaseOfIdx k).mpr hk

/-- With the output register empty the next request is performed: it advances the index and leaves the
host's record as it is. -/
theorem step_request (hk : k ≤ 198) (hv : s.out.valid = false) :
    ∃ t, step s = .next t ∧ DrainedRun c ended (k + 1) t ∧ t.received = s.received := by
  obtain ⟨i, hg⟩ := exists_prog s.pkx s.pky (D.idx_eq ▸ hk)
  have hp := D.running_of_le hk
  have hr : requestReady i s = true := (requestReady_iff i s).mpr ⟨D.inv.noFault, .inl hv⟩
  have M : DeviceMoves s :=
    ⟨D.isReset, D.inv.noFault, D.noRst, D.noScript, by rw [hv, Bool.false_and]⟩
  obtain ⟨co, o, f, e, hu⟩ := exec_prog_frame D.isReset hg
  have hstep := (M.step_of_run D.isWhole D.inv.noIssue hp hg).1 hr _ hu
  have R := D.inv.kept_by_sequence hp hg hr hu
  cases f with
  | true => exact absurd (show true = false from R.noFault) Bool.noConfusion
  | false =>
    refine ⟨_, hstep, ⟨R, D.isReset, D.isWhole, D.drained, D.noRst, D.noScript,
      phaseOfIdx_ne_idle _, ?_, D.first, D.second, D.sameEnded⟩, rfl⟩
    have hidx : s.sq.idx.toNat ≤ 198 := D.idx_eq ▸ hk
    exact (idx_add_one_toNat hidx).trans (congrArg (· + 1) D.idx_eq)

/-- The host takes a waiting word of a run that is on (R193). -/
theorem step_pop (hk : k ≤ 198) (hv : s.out.valid = true) :
    step s = .next (handOver s) ∧ DrainedRun c ended k (handOver s) := by
  refine ⟨step_handOver D.isReset D.noRst D.noScript hv D.drained, D.inv.kept_by_handOver hv,
    D.isReset, D.isWhole, D.drained, D.noRst, D.noScript, D.begun, D.idx_eq, D.first, D.second, ?_⟩
  have hopen : s.out.last ≠ true := fun hl => by
    have hp := D.running_of_le hk
    rw [(D.inv.last_iff hv).mp hl] at hp
    exact Bool.noConfusion hp
  rw [handOver_results, if_neg hopen, D.sameEnded]

/-- After `k` requests all HOLDs issued but the last one have been emitted. -/
theorem emittedWords_length (hk : k ≤ 198) : (emittedWords s).length = k - 1 := by
  rw [(D.inv.inRun (D.running_of_le hk)).2, D.idx_eq, List.length_take, runWords_length]
  omega

theorem received_length (hk : k ≤ 198) (hv : s.out.valid = false) : s.received.length = k - 1 := by
  rw [← emittedWords_of_empty hv, D.emittedWords_length hk]

end

/-- The first request of a run emits nothing. -/
theorem run_first (D : DrainedRun c ended 0 s) (hv : s.out.valid = false) :
    ∃ t, runN 1 s = .next t ∧ DrainedRun c ended 1 t ∧ t.out.valid = false := by
  obtain ⟨t, hs, Dt, -⟩ := D.step_request (Nat.zero_le _) hv
  refine ⟨t, runN_succ_of_step hs 0, Dt, ?_⟩
  cases hw : t.out.valid with
  | false => rfl
  | true =>
    have hlen := Dt.emittedWords_length (by omega)
    rw [emittedWords_of_waiting hw, List.length_append, List.length_singleton] at hlen
    omega

/-- Every later HOLD emits the one before it, which the host takes. -/
theorem run_hold (D : DrainedRun c ended (k + 1) s) (hk : k + 2 ≤ 198) (hv : s.out.valid = false) :
    ∃ t, runN 2 s = .next t ∧ DrainedRun c ended (k + 2) t ∧ t.out.valid = false := by
  obtain ⟨u, hs, Du, hrec⟩ := D.step_request (by omega) hv
  have hw : u.out.valid = true := by
    by_contra hw
    have hlen := Du.received_length hk (by simpa using hw)
    rw [hrec, D.received_length (by omega) hv] at hlen
    omega
  obtain ⟨hpop, Dt⟩ := Du.step_pop hk hw
  exact ⟨_, (runN_succ_of_step hs 1).trans (runN_succ_of_step hpop 0), Dt, rfl⟩

/-- The HOLDs up to any index take two steps each, after the first. -/
theorem run_holds (D : DrainedRun c ended 1 s) (hv : s.out.valid = false) (n : Nat) (hn : n ≤ 197) :
    ∃ t, runN (2 * n) s = .next t ∧ DrainedRun c ended (n + 1) t ∧ t.out.valid = false := by
  induction n with
  | zero => exact ⟨s, runN_zero s, D, hv⟩
  | succ n ih =>
    obtain ⟨u, hu, Du, hvu⟩ := ih (by omega)
    obtain ⟨t, ht, Dt⟩ := Du.run_hold (by omega) hvu
    exact ⟨t, (runN_add hu 2).trans ht, Dt⟩

/-- FINISH emits the last word, and the host's taking it ends the run with all words delivered (R104,
R193, R198). -/
theorem run_finish (D : DrainedRun c ended 198 s) (hv : s.out.valid = false) :
    ∃ t, runN 2 s = .next t ∧ (outputs t).done = true ∧ t.sq.idx = 199 ∧ t.err = .none ∧
      t.results = ended ++ [.complete (commandWords c) .none] := by
  obtain ⟨u, hs, Du, hrec⟩ := D.step_request le_rfl hv
  have hp : u.sq.phase = .finished := Du.phase_eq
  have herr := Du.inv.noErr Du.begun
  obtain ⟨hw, hall⟩ : u.out.valid = true ∧ emittedWords u = runWords u.pkx u.pky := by
    refine (Du.inv.afterRun hp).2.resolve_right fun ⟨_, hnil⟩ => ?_
    have hlen := D.received_length le_rfl hv
    rw [← hrec, hnil] at hlen
    exact absurd hlen (by decide)
  have hpop : step u = .next (handOver u) :=
    step_handOver Du.isReset Du.noRst Du.noScript hw Du.drained
  refine ⟨_, (runN_succ_of_step hs 1).trans (runN_succ_of_step hpop 0), ?_,
    BitVec.eq_of_toNat_eq Du.idx_eq, herr, ?_⟩
  · simp [outputs, done, Du.inv.noFault, hp, handOver]
  · rw [handOver_results, if_pos ((Du.inv.last_iff hw).mpr hp), ← emittedWords_of_waiting hw, hall,
      Du.first, Du.second, Du.sameEnded, herr]
    rfl

/-- From its start a run takes 199 sequencer steps and 198 pops. -/
theorem run_to_end (D : DrainedRun c ended 0 s) (hv : s.out.valid = false) :
    ∃ t, runN (199 + 198) s = .next t ∧ (outputs t).done = true ∧ t.sq.idx = 199 ∧ t.err = .none ∧
      t.results = ended ++ [.complete (commandWords c) .none] := by
  obtain ⟨u, hu, Du, hvu⟩ := D.run_first hv
  obtain ⟨v, hholds, Dv, hvv⟩ := Du.run_holds hvu 197 le_rfl
  obtain ⟨t, ht, hend⟩ := Dv.run_finish hvv
  exact ⟨t, (runN_add hu (2 * 197 + 2)).trans ((runN_add hholds 2).trans ht), hend⟩

end DrainedRun

/-! ### From the command word to the end of its run (R184, R198) -/

/-- A command word that is accepted as the command `c`, whatever the fields a power-off does not use. -/
def AcceptedAs (w : CmdWord) : ValidCommand → Prop
  | .on m sp t => decodeCmd w = .encodePowerOn m sp t
  | .off => ∃ m sp t, decodeCmd w = .encodePowerOff m sp t

section
variable {s : State} {w : CmdWord} {c : ValidCommand}

theorem wellFormed_decodeCmd (w : CmdWord) : WellFormed (decodeCmd w) = true :=
  (encodeOfDecode (.cmd w)).1

theorem AcceptedAs.inRange (A : AcceptedAs w c) : inRange c = true := by
  have hwf := wellFormed_decodeCmd w
  cases c with
  | on m sp t =>
    rw [show decodeCmd w = .encodePowerOn m sp t from A] at hwf
    exact hwf
  | off => rfl

/-- A block that can take an accepted command starts its run (R184). -/
theorem AcceptedAs.exec_eq (A : AcceptedAs w c) (hi : s.initialised = true)
    (hc : cmdReady s = true) :
    exec (decodeCmd w) s = .next (startRun (c != .off) (firstPayload c) (secondPayload c) s) := by
  have hwf := wellFormed_decodeCmd w
  cases c with
  | on m sp t =>
    rw [show decodeCmd w = .encodePowerOn m sp t from A] at hwf ⊢
    obtain ⟨hlo, hhi⟩ := (validTemp_iff t).mp hwf
    exact whenReset_startRun hi hc hlo hhi true _ _
  | off =>
    obtain ⟨m, sp, t, e⟩ := A
    rw [e] at hwf ⊢
    obtain ⟨hlo, hhi⟩ := (validTemp_iff t).mp hwf
    exact whenReset_startRun hi hc hlo hhi false _ _

/-- The step that accepts a command starts its drained run, with nothing waiting. -/
theorem TakesCommand.step_accepted (T : TakesCommand s w) (ho : s.outReady = true)
    (A : AcceptedAs w c) :
    ∃ t, step s = .next t ∧ DrainedRun c s.results 0 t ∧ t.out.valid = false := by
  obtain ⟨hf, hv, -⟩ := (cmdReady_iff s).mp T.ready
  refine ⟨_, T.step_eq.trans (A.exec_eq T.isReset T.ready),
    ⟨runInv_startRun A.inRange hf T.noIssue hv, T.isReset, T.isWhole, ho, T.noRst, T.noScript,
      Phase.noConfusion, rfl, rfl, rfl, rfl⟩, hv⟩

end

/-- Settles O58: the accepted command's step, then its drained run to the end. -/
theorem acceptedCommandDeliversItsWords : Obligations.AcceptedCommandDeliversItsWords := by
  intro s w c T ho hw
  have A : AcceptedAs w c := by cases c <;> exact hw
  obtain ⟨u, hs, D, hv⟩ := T.step_accepted ho A
  obtain ⟨t, ht, hend⟩ := D.run_to_end hv
  exact ⟨t, (runN_add (runN_succ_of_step hs 0) (199 + 198)).trans ht, hend⟩

end Sys2Proof.Machine
end

section
/-! Proofs of the statements about the exceptions (60_exceptions.md): the rejection of a command, the
order of its checks, and the block while `fault` = 1. -/

namespace Sys2Proof.Machine

/-! ### Rejecting a command (R212, R213) -/

section
variable {s : State} (hc : cmdReady s = true)
include hc

/-- A rejection leaves the block ready for the next command (R213). -/
theorem cmdReady_reject (c : ErrCode) : cmdReady (reject c s) = true := by
  obtain ⟨hf, hv, -⟩ := (cmdReady_iff s).mp hc
  exact (cmdReady_iff _).mpr ⟨hf, hv, rfl⟩

variable (hi : s.initialised = true)
include hi

theorem whenReset_reject (c : ErrCode) :
    whenReset s (takeCommand (reject c) s) = .next (reject c s) := by
  rw [whenReset_of_initialised hi, takeCommand_of_cmdReady hc]

end

/-- Settles O30: each REJECT operation is the shared rejection, under its own code. -/
theorem rejectionRecordsItsCode : Obligations.RejectionRecordsItsCode := by
  intro s hi hc
  refine ⟨fun p m sp z t => ?reserved, fun p m sp t => ?badMode, fun p m sp t => ?tempRange,
    cmdReady_reject hc⟩
  case reserved => exact (exec_rejectReserved s p m sp z t).trans (whenReset_reject hc hi _)
  case badMode => exact (exec_rejectBadMode s p m sp t).trans (whenReset_reject hc hi _)
  case tempRange => exact (exec_rejectTempRange s p m sp t).trans (whenReset_reject hc hi _)

/-! ### The checks of a command word, in their order (R212) -/

theorem modePort_injective : Function.Injective modePort := fun m m' h =>
  Option.some.inj <| calc
    some m = modeOfPort (modePort m) := (modeOfPort_modePort m).symm
    _ = modeOfPort (modePort m') := congrArg modeOfPort h
    _ = some m' := modeOfPort_modePort m'

theorem speedPort_injective : Function.Injective speedPort :=
  Function.LeftInverse.injective speedOfPort_speedPort

/-- A command raises no fault and leaves the output register, be it rejected or accepted. -/
theorem exec_decodeCmd_keeps_fault_out {s t : State} {w : CmdWord} (hc : cmdReady s = true)
    (ht : exec (decodeCmd w) s = .next t) : t.fault = s.fault ∧ t.out = s.out := by
  rcases exec_decodeCmd_cases hc ht with ⟨_, rfl⟩ | ⟨_, _, rfl⟩ <;> exact ⟨rfl, rfl⟩

/-- A command that is offered to a ready block has a next state. -/
theorem TakesCommand.exists_step {s : State} {w : CmdWord} (T : TakesCommand s w) :
    ∃ t, exec (decodeCmd w) { s with cmdOffers := [] } = .next t := by
  obtain ⟨effect, e⟩ := exec_decodeCmd_eq w { s with cmdOffers := [] }
  exact ⟨_, e.trans (whenReset_of_initialised T.isReset _)⟩

/-- Settles O32: the checks of O5 give the operation the step runs, a rejection (O30) or the start of the
accepted command's run, whose mode and speed the codes determine. -/
theorem takenCommandIsCheckedInOrder : Obligations.TakenCommandIsCheckedInOrder := by
  intro s w T
  obtain ⟨t, ht⟩ := T.exists_step
  obtain ⟨hf, -, -⟩ := (cmdReady_iff s).mp T.ready
  obtain ⟨hfault, hout⟩ :=
    exec_decodeCmd_keeps_fault_out (s := { s with cmdOffers := [] }) T.ready ht
  obtain ⟨reserved, badMode, badTemp, accepted⟩ := commandWordIsExactlyOne w
  have eq_of_exec {u : State} (he : exec (decodeCmd w) { s with cmdOffers := [] } = .next u) :
      t = u := Host.Outcome.next.inj (ht.symm.trans he)
  refine ⟨t, T.step_eq.trans ht, hfault.trans hf, hout, fun code hcode => ?rejected,
    fun hz hm hlo hhi => ?accepted⟩
  case rejected =>
    obtain ⟨onReserved, onBadMode, onBadTemp, hready⟩ :=
      rejectionRecordsItsCode { s with cmdOffers := [] } T.isReset T.ready
    have ht' : t = reject code { s with cmdOffers := [] } := by
      rcases hcode with ⟨hz, rfl⟩ | ⟨hz, hm, rfl⟩ | ⟨hz, hm, hT, rfl⟩
      · obtain ⟨p, m, sp, z, x, e⟩ := reserved hz
        exact eq_of_exec (e ▸ onReserved p m sp z x)
      · obtain ⟨p, m, sp, x, e⟩ := badMode hz hm
        exact eq_of_exec (e ▸ onBadMode p m sp x)
      · obtain ⟨p, m, sp, x, e⟩ := badTemp hz (Nat.le_of_lt_succ hm) hT
        exact eq_of_exec (e ▸ onBadTemp p m sp x)
    rw [ht']
    exact ⟨rfl, rfl, rfl, rfl, rfl, hready code⟩
  case accepted =>
    obtain ⟨m, sp, hmode, hspeed, hdec⟩ := accepted hz (Nat.le_of_lt_succ hm) hlo hhi
    cases hp : w.getLsbD 15 with
    | true =>
      have A : AcceptedAs w (.on m sp (cmdT w)) := hdec.trans (if_pos hp)
      rw [eq_of_exec (A.exec_eq T.isReset T.ready)]
      refine ⟨rfl, rfl, rfl, fun _ m' sp' hmode' hspeed' => ⟨?_, rfl⟩, Bool.noConfusion⟩
      obtain rfl : m = m' := modePort_injective (hmode.symm.trans hmode')
      obtain rfl : sp = sp' := speedPort_injective (hspeed.symm.trans hspeed')
      rfl
    | false =>
      have A : AcceptedAs w .off := ⟨m, sp, cmdT w, hdec.trans (if_neg (Bool.eq_false_iff.mp hp))⟩
      rw [eq_of_exec (A.exec_eq T.isReset T.ready)]
      exact ⟨rfl, rfl, rfl, Bool.noConfusion, fun _ => ⟨rfl, rfl⟩⟩

/-! ### A faulted block (R215) -/

section
variable {s : State} (hf : s.fault = true)
include hf

theorem takeCommand_of_fault (effect : State → State) : takeCommand effect s = s :=
  if_neg (by simp [cmdReady, hf])

theorem coalescerHold_of_fault (lv : Level) (d : Dur) : coalescerHold lv d s = s := if_pos hf

theorem coalescerFinish_of_fault : coalescerFinish s = s := if_pos hf

theorem coalescerIllegal_of_fault : coalescerIllegal s = s := if_pos hf

theorem issueHolds_of_fault (hs : List Hold) : issueHolds hs s = s := if_pos hf

theorem evaluate_of_fault (r : OpResult) : evaluate r s = s := if_pos hf

variable (hi : s.initialised = true)
include hi

/-- The shared operation of every instruction but POP and RESET leaves a faulted block as it is. -/
theorem exec_of_fault {i : Instr} (hr : i ≠ .reset) (hp : i ≠ .pop) : exec i s = .next s := by
  have stays {t : State} (e : t = s) : whenReset s t = .next s :=
    (whenReset_of_initialised hi t).trans (congrArg _ e)
  cases i with
  | encodePowerOn | encodePowerOff | rejectReserved | rejectBadMode | rejectTempRange =>
    exact stays (takeCommand_of_fault hf _)
  | hold => exact stays (coalescerHold_of_fault hf _ _)
  | finish => exact stays (coalescerFinish_of_fault hf)
  | illegalHreq => exact stays (coalescerIllegal_of_fault hf)
  | leadIn | bitOne | bitZero | stop | encodeByte | encodePair | encodeFrame =>
    exact stays (issueHolds_of_fault hf _)
  | validate | grey | pack => exact stays (evaluate_of_fault hf _)
  | pop => exact absurd rfl hp
  | reset => exact absurd rfl hr

/-- With no reset, no plan and no word to hand over, nothing is left to happen (log 14). -/
theorem step_of_fault (hr : s.rst = false) (hs : s.script = [])
    (hv : (s.out.valid && s.outReady) = false) : step s = .fault (.halted s.err) := by
  have hturn : deviceTurn s = stall s := by simp [deviceTurn, hi, hv, hf]
  have hstall : stall s = .halt s.err := by simp [stall, hf, hs]
  simp only [step, activity_of_quiet hr hs, hturn, hstall]

end

/-- A pop writes the output register and the host's record alone. -/
theorem popWord_keeps (s : State) :
    (popWord s).fault = s.fault ∧ (popWord s).err = s.err ∧ (popWord s).co = s.co := by
  rcases popWord_cases s with ⟨-, e⟩ | ⟨-, e⟩ <;> rw [e] <;> exact ⟨rfl, rfl, rfl⟩

/-- Settles O46: the operations by `exec_of_fault`, POP by what it keeps, and the step by its halt. -/
theorem faultedBlockIsStuck : Obligations.FaultedBlockIsStuck := by
  intro s hi hf
  refine ⟨fun i hr hp => exec_of_fault hf hi hr hp, fun t ht => ?pop, step_of_fault hf hi⟩
  case pop =>
    obtain ⟨-, rfl⟩ := whenReset_eq_next.mp ht
    obtain ⟨hfault, herr, hco⟩ := popWord_keeps s
    exact ⟨hfault.trans hf, herr, hco⟩

end Sys2Proof.Machine
end

section
/-! Proofs of the statements about reset (70_reset_and_hazards.md): what it does to the host's lines and
record, the block right after it, and the block before the first one. -/

namespace Sys2Proof.Machine

/-! ### The run a reset cuts short (R247) -/

theorem runOpen_iff (s : State) : runOpen s = true ↔
    s.initialised = true ∧ (running s.sq.phase = true ∨ s.out.valid = true ∨ s.received ≠ [] ∨
      (s.co.closed = false ∧ s.co.acc ≠ 0#16)) := by
  simp only [runOpen, Bool.and_eq_true, Bool.or_eq_true, Bool.not_eq_true', bne_iff_ne,
    List.isEmpty_eq_false_iff, or_assoc]

theorem loadReset_results_of_open {s : State} (h : runOpen s = true) :
    (loadReset s).results = s.results ++ [.cut] := if_pos h

theorem loadReset_results_of_not_open {s : State} (h : ¬ runOpen s = true) :
    (loadReset s).results = s.results := if_neg h

/-- Settles O42: RESET loads the block's registers alone, and records a cut by `runOpen_iff`. -/
theorem resetKeepsTheHostsLines : Obligations.ResetKeepsTheHostsLines := by
  intro s
  refine ⟨loadReset s, exec_reset s, rfl, rfl, rfl, ?results, rfl, fun hi hopen => ?cut,
    fun hi hp hv hw hco => ?whole, fun hi => ?first⟩
  case results =>
    by_cases h : runOpen s = true
    · exact .inr (loadReset_results_of_open h)
    · exact .inl (loadReset_results_of_not_open h)
  case cut => exact loadReset_results_of_open ((runOpen_iff s).mpr ⟨hi, hopen⟩)
  case whole =>
    refine loadReset_results_of_not_open fun h => ?_
    obtain ⟨-, hrun | hword | hpopped | ⟨hopen, hacc⟩⟩ := (runOpen_iff s).mp h
    · exact Bool.false_ne_true (hp.symm.trans hrun)
    · exact Bool.false_ne_true (hv.symm.trans hword)
    · exact hpopped hw
    · exact hco.elim (fun hclosed => Bool.false_ne_true (hopen.symm.trans hclosed)) hacc
  case first =>
    refine loadReset_results_of_not_open fun h => ?_
    exact Bool.false_ne_true (hi.symm.trans ((runOpen_iff s).mp h).1)

/-! ### Right after reset (R241) -/

/-- A block that could take a command waits while none is offered (R181). -/
theorem DeviceMoves.step_of_no_command {s : State} (M : DeviceMoves s) (ha : s.alone = false)
    (hn : s.issuing = []) (hc : cmdReady s = true) (hw : s.cmdOffers = []) :
    step s = .next s := by
  obtain ⟨-, -, hp⟩ := (cmdReady_iff s).mp hc
  refine step_of_settle ?_
  rw [M.activity_of_integrated ha hn, ← M.stall_eq_settle]
  simp [blockTurn, takenWord, hp, hc, hw]

theorem deviceMoves_reset : DeviceMoves State.reset := ⟨rfl, rfl, rfl, rfl, rfl⟩

theorem takesCommand_reset (w : CmdWord) : TakesCommand { State.reset with cmdOffers := [w] } w :=
  ⟨rfl, rfl, rfl, rfl, rfl, rfl, rfl⟩

/-- Settles O43: the outputs are read off the reset values; with no command the block's turn is a wait,
and a word offered is the word taken. -/
theorem afterResetTheBlockIsReady : Obligations.AfterResetTheBlockIsReady :=
  ⟨rfl, rfl, rfl, rfl, rfl, rfl, rfl, rfl, deviceMoves_reset.step_of_no_command rfl rfl rfl rfl,
    fun w => (takesCommand_reset w).step_eq⟩

/-! ### Before the first reset (R242) -/

/-- Every operation but RESET has its next state only on a block that has been reset. -/
theorem exec_eq_whenReset {i : Instr} (hi : i ≠ .reset) (s : State) :
    ∃ t, exec i s = whenReset s t := by
  cases i with
  | reset => exact absurd rfl hi
  | _ => exact ⟨_, rfl⟩

theorem step_of_refuse {s : State} {r : Refusal} (h : activity s = .refuse r) :
    step s = .refused r := by
  simp only [step, h]

theorem deviceTurn_of_not_initialised {s : State} (hi : s.initialised = false) :
    deviceTurn s = .refuse .beforeFirstReset :=
  if_pos (by simp [hi])

/-- Settles O45: the operations by `exec_eq_whenReset`, the block's turn by its first check. -/
theorem nothingBeforeFirstReset : Obligations.NothingBeforeFirstReset := by
  intro s hs
  refine ⟨fun i hi => ?operation, fun hr hq => ?turn, loadReset s, exec_reset s,
    loadReset_initialised s⟩
  case operation =>
    obtain ⟨t, e⟩ := exec_eq_whenReset hi s
    exact e.trans (whenReset_of_not hs t)
  case turn =>
    exact step_of_refuse ((activity_of_quiet hr hq).trans (deviceTurn_of_not_initialised hs))

end Sys2Proof.Machine
end

section
/-! Proof of the statement about the example words of the spec (30_encoding.md sections 2 and 3). -/

namespace Sys2Proof

/-! ### The opcode table's words, port by port (R85)

The port of a table word is known by its length, and there the word of a well-formed instruction decodes
to that instruction. -/

section
variable {i : Instr} {w : Nat} (hwf : WellFormed i = true)
include hwf

theorem decodeTableWord_of_encode_cmd (he : encode i = some (.cmd (BitVec.ofNat 16 w))) :
    decodeTableWord 16 w = some i :=
  congrArg some (decodeOfEncode i _ hwf he)

theorem decodeTableWord_of_encode_hreq (he : encode i = some (.hreq (BitVec.ofNat 32 w))) :
    decodeTableWord 32 w = some i :=
  congrArg some (decodeOfEncode i _ hwf he)

end

/-- Settles O1: each example is the word of the well-formed instruction it stands for. -/
theorem exampleWordsDecode : Obligations.ExampleWordsDecode := by
  refine ⟨?on25, ?off25, ?on30, ?badTemp, ?badMode, ?reserved, ?high, ?low, ?finish, ?illegal⟩
  case' high | low | finish | illegal => apply decodeTableWord_of_encode_hreq
  case' on25 | off25 | on30 | badTemp | badMode | reserved => apply decodeTableWord_of_encode_cmd
  all_goals rfl

end Sys2Proof
end
